-- ==== Sys2Proof/Word.lean ====
section
/-! DEFINITION. The word types of the machine and their plainest arithmetic (spec/00_scope.md R5, R7, R8, R9). -/

namespace Sys2Proof

/-- A register value, an address or the pc: 32 bits, bit 0 least significant (R5, R7). -/
abbrev Word := BitVec 32

/-- One byte of memory (R32). -/
abbrev Byte := BitVec 8

/-- One 16-bit instruction word (R7, R70). -/
abbrev InstWord := BitVec 16

/-- `sext_32` of R9. -/
abbrev sext32 {w : Nat} (v : BitVec w) : Word := v.signExtend 32

/-- `zext_32` of R9. -/
abbrev zext32 {w : Nat} (v : BitVec w) : Word := v.setWidth 32

/-- `v[0] = 0`, the evenness R27, R190 and R196 ask of the pc and of the addresses it may hold. -/
abbrev Even32 (v : Word) : Prop := v.getLsbD 0 = false

end Sys2Proof
end

