-- ==== Sys2Proof/Machine/Flags.lean ====
section
/-! DEFINITION. The results of the arithmetic and logic operators (spec/00_scope.md R11). There are NO flags: no instruction
in scope writes or reads a carry, borrow, overflow, zero or sign flag (spec/10_state.md R29), so no flag computation
stands here beside the results. -/

namespace Sys2Proof.Machine

/-- `a + b`, modulo 2^32; no overflow is recorded and none traps (R11). -/
def aluAdd (a b : Word) : Word := a + b

/-- `a - b`, modulo 2^32; no borrow is recorded and none traps (R11). -/
def aluSub (a b : Word) : Word := a - b

/-- Bitwise AND (R11). -/
def aluAnd (a b : Word) : Word := a &&& b

/-- Bitwise exclusive OR (R11). -/
def aluXor (a b : Word) : Word := a ^^^ b

/-- `a >> n`: zeros enter at bit 31 (R11). -/
def aluShiftRightLogical (a : Word) (n : Nat) : Word := a >>> n

/-- `a >>s n`: copies of bit 31 enter at bit 31 (R11). -/
def aluShiftRightArithmetic (a : Word) (n : Nat) : Word := a.sshiftRight n

end Sys2Proof.Machine
end

