-- ==== Sys2Proof/Syntax.lean ====
section
/-! DEFINITION. The instructions: one constructor for each of the 33 rows of spec/opcode_table.json, which partition the
65536 words (spec/30_encoding.md R89). An immediate field holds the OPERAND VALUE at the width the spec gives it
(R80 to R86), so that C.JAL's offset is the 12-bit `imm` whose bit 0 is 0; `WellFormed.lean` says which values an encoding
admits. An undocumented word's row names no field, so its constructor holds the bits the row does not fix. -/

namespace Sys2Proof

/-- The number of a general register, x0 to x31 (R20); what a 5-bit register field holds (R79). -/
abbrev Reg := Fin 32

/-- What a 3-bit register field `rd'`, `rs1'`, `rs2'` holds (R79): `f` names register `8 + f`. -/
abbrev CReg := Fin 8

/-- The register a 3-bit field names: `x[8 + f]` (R12, R79). -/
def CReg.reg (f : CReg) : Reg := ⟨8 + f.val, by omega⟩

/-- Which of C.SRLI and C.SRAI a Reserved word with `shamt[5] = 1` has the pattern of (R144): `inst[10]`. -/
inductive ShiftKind where
  /-- C.SRLI, `inst[11:10] = 00`. -/
  | srli
  /-- C.SRAI, `inst[11:10] = 01`. -/
  | srai
deriving DecidableEq, Repr

/-- One constructor for each row of spec/opcode_table.json, in the table's order. -/
inductive Instr where
  /-- C.ADDI4SPN rd', sp, nzuimm (R110; nzuimm by R80). -/
  | addi4spn (rd : CReg) (nzuimm : BitVec 10)
  /-- C.ADDI4SPN with a zero immediate, Reserved (R111). -/
  | reservedAddi4spnImm0 (rd : CReg)
  /-- C.LW rd', uimm(rs1') (R112; uimm by R81). -/
  | lw (rd rs1 : CReg) (uimm : BitVec 7)
  /-- C.SW rs2', uimm(rs1') (R113; uimm by R81). -/
  | sw (rs2 rs1 : CReg) (uimm : BitVec 7)
  /-- C.NOP, the word 0x0001 (R121). -/
  | nop
  /-- C.ADDI rd, imm (R120; imm by R82). -/
  | addi (rd : Reg) (imm : BitVec 6)
  /-- C.JAL imm (R122; imm by R83). -/
  | jal (imm : BitVec 12)
  /-- C.LI rd, imm with rd not x0 (R123; imm by R82). -/
  | li (rd : Reg) (imm : BitVec 6)
  /-- C.LI with rd = x0, a HINT (R124). -/
  | hintLiRd0 (imm : BitVec 6)
  /-- C.LUI rd, imm with rd neither x0 nor x2 (R125; imm, the 6-bit field value, by R84). -/
  | lui (rd : Reg) (imm : BitVec 6)
  /-- C.LUI with rd = x0, Reserved (R126). -/
  | reservedLuiRd0 (imm : BitVec 6)
  /-- C.ADDI16SP imm (R127; imm by R85). -/
  | addi16sp (imm : BitVec 10)
  /-- C.ADDI16SP with a zero immediate, Reserved: the word 0x6101 (R128). -/
  | reservedAddi16spImm0
  /-- C.SRLI rd', shamt with shamt in 1..31 (R140; shamt by R86). -/
  | srli (rd : CReg) (shamt : BitVec 5)
  /-- C.SRLI with shamt = 0, a HINT (R141). -/
  | hintSrliShamt0 (rd : CReg)
  /-- C.SRAI rd', shamt with shamt in 1..31 (R142; shamt by R86). -/
  | srai (rd : CReg) (shamt : BitVec 5)
  /-- C.SRAI with shamt = 0, a HINT (R143). -/
  | hintSraiShamt0 (rd : CReg)
  /-- C.SRLI or C.SRAI with shamt[5] = 1, Reserved (R144). -/
  | reservedShiftShamt5 (kind : ShiftKind) (rd : CReg) (shamt : BitVec 5)
  /-- C.ANDI rd', imm (R145; imm by R82). -/
  | andi (rd : CReg) (imm : BitVec 6)
  /-- C.SUB rd', rs2' (R146). -/
  | sub (rd rs2 : CReg)
  /-- C.XOR rd', rs2' (R147). -/
  | xor (rd rs2 : CReg)
  /-- Undocumented, op = 00, funct3 = 001 (R96); the bits inst[12:2]. -/
  | undocQ0F001 (bits : BitVec 11)
  /-- Undocumented, op = 00, funct3 = 011 (R96); the bits inst[12:2]. -/
  | undocQ0F011 (bits : BitVec 11)
  /-- Undocumented, op = 00, funct3 = 100 (R96); the bits inst[12:2]. -/
  | undocQ0F100 (bits : BitVec 11)
  /-- Undocumented, op = 00, funct3 = 101 (R96); the bits inst[12:2]. -/
  | undocQ0F101 (bits : BitVec 11)
  /-- Undocumented, op = 00, funct3 = 111 (R96); the bits inst[12:2]. -/
  | undocQ0F111 (bits : BitVec 11)
  /-- Undocumented, op = 01, funct3 = 101 (R96); the bits inst[12:2]. -/
  | undocQ1F101 (bits : BitVec 11)
  /-- Undocumented, op = 01, funct3 = 110 (R96); the bits inst[12:2]. -/
  | undocQ1F110 (bits : BitVec 11)
  /-- Undocumented, op = 01, funct3 = 111 (R96); the bits inst[12:2]. -/
  | undocQ1F111 (bits : BitVec 11)
  /-- Undocumented, op = 01, inst[15:10] = 100011, inst[6] = 1 (R96); the bits inst[9:7] and inst[5:2]. -/
  | undocQ1Ca1x (hi : BitVec 3) (lo : BitVec 4)
  /-- Undocumented, op = 01, inst[15:10] = 100111 (R96); the bits inst[9:2]. -/
  | undocQ1F100111 (bits : BitVec 8)
  /-- Undocumented, op = 10 (R96); the bits inst[15:2]. -/
  | undocQ2 (bits : BitVec 14)
  /-- Undocumented, op = 11, no 16-bit instruction (R51, R96); the bits inst[15:2]. -/
  | undocOp11 (bits : BitVec 14)
deriving DecidableEq, Repr

end Sys2Proof
end

