-- ==== Sys2Proof/Machine/Operands.lean ====
section
/-! DEFINITION. The operand an immediate stands for, as a 32-bit word (spec/30_encoding.md R80 to R86). Each instruction has
one operand form, so there is one definition for each kind of immediate. -/

namespace Sys2Proof.Machine

/-- `zext_32(nzuimm)` of C.ADDI4SPN (R80). -/
def operandAddi4spn (nzuimm : BitVec 10) : Word := zext32 nzuimm

/-- `zext_32(uimm)`, the byte offset of C.LW and C.SW (R81). -/
def operandOffset (uimm : BitVec 7) : Word := zext32 uimm

/-- `sext_32(imm)` of C.ADDI, C.LI and C.ANDI (R82). -/
def operandImm6 (imm : BitVec 6) : Word := sext32 imm

/-- `sext_32(imm)`, the byte offset of C.JAL (R83). -/
def operandJal (imm : BitVec 12) : Word := sext32 imm

/-- `sext_32` of `imm[5:0]` with 12 zeros below it, the value C.LUI writes (R84). -/
def operandLui (imm : BitVec 6) : Word := sext32 (imm ++ 0#12)

/-- `sext_32(imm)` of C.ADDI16SP (R85). -/
def operandAddi16sp (imm : BitVec 10) : Word := sext32 imm

/-- The shift amount of C.SRLI and C.SRAI, `inst[6:2]` read as unsigned (R86). -/
def operandShamt (shamt : BitVec 5) : Nat := shamt.toNat

end Sys2Proof.Machine
end

