-- ==== Sys2Proof/Config.lean ====
section
/-! DEFINITION. The values this package's `State.reset` is launched with, where the spec leaves a parameter
(spec/00_scope.md R6). Each is a DESIGN CHOICE: the spec gives none of them. `Machine.State.launch` takes every one
of them as an argument instead, and a theorem over all states holds whatever they are. No instruction in scope leaves a value
undefined, so there is no opaque free value here. -/

namespace Sys2Proof.Config

/-- DESIGN CHOICE (unsafe, log entry 2): RESET_PC of R190, an even address. N28 forbids assuming a reset vector of 0. -/
def resetPc : Word := 0x00000100

/-- DESIGN CHOICE (unsafe, log entry 1): the value of `x(n+1)` after reset. R191 says a model must not start the
registers at zero, so each gets a value of its own, a multiple of 256. -/
def resetReg (n : Nat) : Word := 0xA5A50100 + BitVec.ofNat 32 (256 * n)

/-- DESIGN CHOICE (unsafe, log entry 3): what a byte of memory that nothing has written and no launch has listed
reads as. R192 makes the initial contents a parameter, Mem0. -/
def unlistedByte : Byte := 0

/-- DESIGN CHOICE (unsafe, log entry 4): how many bytes, from address 0, are readable and writable after reset: all
2^32. R48 makes the map a parameter, MemMap. -/
def resetMapBytes : Nat := 4294967296

/-- DESIGN CHOICE (safe, log entry 5): END_PC of R196, absent in `State.reset`. -/
def resetEndPc : Option Word := none

end Sys2Proof.Config
end

