-- ==== Sys2Proof/Machine/MemMap.lean ====
section
/-! DEFINITION. MemMap, the three predicates over byte addresses that spec/20_memory.md R48 leaves as a parameter, as plain
data: a list of regions. Since there are finitely many addresses, every triple of predicates is some such list. -/

namespace Sys2Proof.Machine

/-- Some consecutive byte addresses and what may be done with them. -/
structure Region where
  /-- The first address. -/
  base : Word
  /-- How many addresses, counted modulo 2^32 from `base`. -/
  size : Nat
  /-- C.LW may read them (R47). -/
  readable : Bool
  /-- C.SW may write them (R47). -/
  writable : Bool
  /-- Fetch may read them (R50); they are program text (R53). -/
  executable : Bool
deriving DecidableEq, Repr

/-- The region holds the address. -/
def Region.contains (r : Region) (a : Word) : Bool := decide ((a - r.base).toNat < r.size)

/-- The map of R48: an address has a permission if some region that holds it gives it. -/
abbrev MemMap := List Region

namespace MemMap

/-- `MemMap.readable(a)` of R48. -/
def readable (m : MemMap) (a : Word) : Bool := m.any fun r => r.readable && r.contains a

/-- `MemMap.writable(a)` of R48. -/
def writable (m : MemMap) (a : Word) : Bool := m.any fun r => r.writable && r.contains a

/-- `MemMap.executable(a)` of R48. -/
def executable (m : MemMap) (a : Word) : Bool := m.any fun r => r.executable && r.contains a

/-- The byte exists: one of the three predicates holds (R48). -/
def admits (m : MemMap) (a : Word) : Bool := m.readable a || m.writable a || m.executable a

end MemMap

/-- Every one of the 4 byte addresses `addr .. addr+3` of a data access satisfies a predicate (R47). -/
def everyByte (p : Word → Bool) (a : Word) : Bool := p a && p (a + 1#32) && p (a + 2#32) && p (a + 3#32)

/-- Some one of the 4 byte addresses `addr .. addr+3` of a data access satisfies a predicate (R53). -/
def someByte (p : Word → Bool) (a : Word) : Bool := p a || p (a + 1#32) || p (a + 2#32) || p (a + 3#32)

end Sys2Proof.Machine
end

