-- ==== Sys2Proof/Machine/Memory.lean ====
section
/-! DEFINITION. Memory: the bytes of the one address space (spec/10_state.md R32) in one canonical form, and the reads and
writes of it (spec/20_memory.md R42, R43). Nothing here checks an access; `Ops.lean` does. -/

namespace Sys2Proof.Machine

/-- The listed bytes, addresses strictly rising, none equal to what an unlisted address reads as. -/
abbrev Memory := List Host.Cell

namespace Memory

/-- What one address holds. -/
def readAt : Memory → Nat → Byte
  | [], _ => Config.unlistedByte
  | (k, v) :: m, a => if k = a then v else readAt m a

/-- `m` with one address holding `b`, canonical again: a byte equal to the unlisted one is not listed. -/
def writeAt : Memory → Nat → Byte → Memory
  | [], a, b => if b = Config.unlistedByte then [] else [(a, b)]
  | (k, v) :: m, a, b =>
    if k < a then (k, v) :: writeAt m a b
    else if b = Config.unlistedByte then (if k = a then m else (k, v) :: m)
    else (a, b) :: (if k = a then m else (k, v) :: m)

/-- Canonical, with every address at least `lo`. -/
def wfFrom : Nat → Memory → Bool
  | _, [] => true
  | lo, (k, v) :: m => decide (lo ≤ k) && decide (k < 4294967296) && decide (v ≠ Config.unlistedByte) && wfFrom (k + 1) m

/-- The canonical form: addresses strictly rising within the 2^32 of R32, no entry equal to the unlisted byte. -/
def wf (m : Memory) : Bool := wfFrom 0 m

/-- `mem[a]` (R32). -/
def byte (m : Memory) (a : Word) : Byte := readAt m a.toNat

/-- `mem[a] <- b`. -/
def setByte (m : Memory) (a : Word) (b : Byte) : Memory := writeAt m a.toNat b

/-- The 4 bytes at `a .. a+3` as one little-endian word (R42, R43). -/
def word (m : Memory) (a : Word) : Word := m.byte (a + 3#32) ++ m.byte (a + 2#32) ++ m.byte (a + 1#32) ++ m.byte a

/-- The 4 bytes at `a .. a+3` set to `v`, least significant at `a` (R42, R43). -/
def setWord (m : Memory) (a v : Word) : Memory :=
  (((m.setByte a (v.extractLsb' 0 8)).setByte (a + 1#32) (v.extractLsb' 8 8)).setByte (a + 2#32) (v.extractLsb' 16 8)).setByte
    (a + 3#32) (v.extractLsb' 24 8)

/-- The 2 bytes at `a` and `a+1` as one little-endian instruction word (R43, R50). -/
def half (m : Memory) (a : Word) : InstWord := m.byte (a + 1#32) ++ m.byte a

/-- The 2 bytes at `a` and `a+1` set to `w`: how the host places an instruction (R195). No instruction does this. -/
def setHalf (m : Memory) (a : Word) (w : InstWord) : Memory :=
  (m.setByte a (w.extractLsb' 0 8)).setByte (a + 1#32) (w.extractLsb' 8 8)

end Memory

end Sys2Proof.Machine
end

