-- ==== Sys2Proof/Machine/State.lean ====
section
/-! DEFINITION. The state of the machine (spec/10_state.md R34), the reasons a step can stop (spec/60_exceptions.md R160 to
R169), and the state a run starts from (spec/70_reset_and_hazards.md R190 to R193). -/

namespace Sys2Proof.Machine

/-- The architectural state is `regs`, `pc` and `mem` (R34). `memMap` and `endPc` are the parameters of the step relation,
which R34 calls fixed for a whole run: they stand here because a step has only the state to read them from, and no step
changes them (log entry 6). There is nothing else: no flags, no control registers, no other register file, no hidden state, no
mode (R29, R30, R31, R33, R175). -/
structure State where
  /-- x1 to x31, 32 bits each, x(n+1) at index n (R20, R34). x0 is hardwired and not stored (R21). -/
  regs : Vector Word 31
  /-- The byte address of the instruction being executed (R24). -/
  pc : Word
  /-- The bytes of memory (R32). -/
  mem : Memory
  /-- MemMap (R48): a launch parameter. -/
  memMap : MemMap
  /-- END_PC (R196), optional: a launch parameter. -/
  endPc : Option Word
deriving DecidableEq, Repr

/-- How a step stops with a fault. Each is terminal and precise (R166): the state stays the one before the step, and
nothing is saved. SAFE: the model stops where the hardware, if it traps, goes on in a handler (R172). -/
inductive Fault where
  /-- R161: raised by executing a Reserved encoding; the word and the pc of the instruction. Safe. -/
  | illegalInstruction (inst : InstWord) (pc : Word)
  /-- R162: raised by C.LW at an effective address that is no multiple of 4; that address and the pc. Safe. -/
  | loadAddressMisaligned (addr pc : Word)
  /-- R163: raised by C.SW at an effective address that is no multiple of 4; that address and the pc. Safe. -/
  | storeAddressMisaligned (addr pc : Word)
  /-- R164: raised by C.LW when a byte of an aligned access is not readable; the effective address and the pc. Safe. -/
  | loadAccessFault (addr pc : Word)
  /-- R165: raised by C.SW when a byte of an aligned access is not writable; the effective address and the pc. Safe. -/
  | storeAccessFault (addr pc : Word)
  /-- R167: raised by the fetch when the byte at pc or at pc + 1 is not executable; the pc. Safe. -/
  | instructionAccessFault (pc : Word)
deriving DecidableEq, Repr

/-- How a step ends with no meaning. A refusal says nothing about the hardware (R168). SAFE. -/
inductive Refusal where
  /-- An instruction whose arm of `exec` has no meaning yet. No arm is so. Safe. -/
  | notModelled (mnemonic : String)
  /-- R96, R168: raised by executing a word no section of the source describes; the word. Safe. -/
  | undocumented (inst : InstWord)
  /-- R53, R168: raised by a C.SW that would write an executable byte; the effective address. Safe. -/
  | storeToCode (addr : Word)
deriving DecidableEq, Repr

/-- What a step, a meaning or an access ends in (R160). -/
abbrev Result (α : Type) := Host.Outcome α Fault Refusal

/-- The launch parameters of R6: what the host supplies before the first step (R17). -/
structure Launch where
  /-- RESET_PC (R190). -/
  resetPc : Word
  /-- END_PC (R196). -/
  endPc : Option Word
  /-- MemMap (R48). -/
  memMap : MemMap
  /-- Mem0 (R192). -/
  mem0 : Memory
  /-- X0 (R191): the initial x1 to x31. -/
  x0 : Vector Word 31
deriving DecidableEq, Repr

/-- The state after reset, for given launch parameters (R190, R191, R192); there is no other state to reset (R193). -/
def State.launch (p : Launch) : State where
  regs := p.x0
  pc := p.resetPc
  mem := p.mem0
  memMap := p.memMap
  endPc := p.endPc

/-- The launch parameters `State.reset` takes: the DESIGN CHOICES of `Config` (log entries 1 to 5). No program is placed and
no byte is executable. -/
def Launch.named : Launch where
  resetPc := Config.resetPc
  endPc := Config.resetEndPc
  memMap := [⟨0, Config.resetMapBytes, true, true, false⟩]
  mem0 := []
  x0 := Vector.ofFn fun n => Config.resetReg n.val

/-- The machine right after reset. -/
def State.reset : State := State.launch Launch.named

end Sys2Proof.Machine
end

