-- ==== Sys2Proof/Machine/Ops.lean ====
section
/-! DEFINITION. The named operations every meaning is built from: registers and pc, the ends of a step, the checked accesses
to memory, and fetch. -/

namespace Sys2Proof.Machine

/-! ## Registers and pc (R12, R20, R21, R26) -/

/-- `x[r]`: x0 reads 0 (R12, R21). -/
def State.reg (s : State) : Reg → Word
  | ⟨0, _⟩ => 0
  | ⟨n + 1, h⟩ => s.regs[n]'(by omega)

/-- `x[r] <- v`: a write to x0 is discarded (R12, R21). -/
def State.setReg (s : State) (r : Reg) (v : Word) : State :=
  match r with
  | ⟨0, _⟩ => s
  | ⟨n + 1, h⟩ => { s with regs := s.regs.set n v (by omega) }

/-- `pc <- t` (R14). -/
def State.setPc (s : State) (t : Word) : State := { s with pc := t }

/-- The address of the instruction after this one, `pc + 2` modulo 2^32 (R26, R28). -/
def State.nextPc (s : State) : Word := s.pc + 2#32

/-- The register C.JAL links (R22). -/
def raReg : Reg := 1

/-- The stack pointer (R22). -/
def spReg : Reg := 2

/-! ## How a step ends (R14, R160, R166) -/

/-- Go on with the value of an access, or end as it ended: the first check that fails decides (R44, R171). -/
def andThen {α β : Type} (o : Result α) (f : α → Result β) : Result β :=
  match o with
  | .next a => f a
  | .fault e => .fault e
  | .refused u => .refused u

/-- `raise E(info)`, THE operation that every exception of the spec goes through: the fault is recorded with the pc of the
instruction and nothing changes (R14, R161 to R167). There is no trap entry to perform and no return from one: nothing is
saved and control goes nowhere (R166, R172, R173). -/
def raise {α : Type} (s : State) (f : Word → Fault) : Result α := .fault (f s.pc)

/-- `refuse U(info)` (R14, R168). -/
def refuse {α : Type} (u : Refusal) : Result α := .refused u

/-- The end of an instruction that writes no `pc`: `pc <- pc + 2` (R26). -/
def retire (s : State) : Result State := .next (s.setPc s.nextPc)

/-- `x[rd] <- v`, then `pc <- pc + 2`: how every register instruction other than C.JAL ends. -/
def writeBack (rd : Reg) (v : Word) (s : State) : Result State := retire (s.setReg rd v)

/-! ## Data accesses (R40 to R47, R53) -/

/-- `addr[1:0] = 0` (R46). -/
def wordAligned (a : Word) : Bool := a.extractLsb' 0 2 == 0#2

/-- The effective address, base register plus offset modulo 2^32 (R40). -/
def dataAddr (rs1 : CReg) (uimm : BitVec 7) (s : State) : Word := s.reg rs1.reg + operandOffset uimm

/-- `MemRead(addr, 4)`: alignment, then every byte readable, then the little-endian word (R42, R44, R46, R47). -/
def memRead (a : Word) (s : State) : Result Word :=
  if !wordAligned a then raise s (.loadAddressMisaligned a)
  else if !everyByte s.memMap.readable a then raise s (.loadAccessFault a)
  else .next (s.mem.word a)

/-- `MemWrite(addr, 4, v)`: alignment, then every byte writable, then no byte executable, then the four bytes are set
(R42, R44, R46, R47, R53). -/
def memWrite (a v : Word) (s : State) : Result State :=
  if !wordAligned a then raise s (.storeAddressMisaligned a)
  else if !everyByte s.memMap.writable a then raise s (.storeAccessFault a)
  else if someByte s.memMap.executable a then refuse (.storeToCode a)
  else .next { s with mem := s.mem.setWord a v }

/-! ## Fetch and the end of a run (R25, R50, R196) -/

/-- `Fetch(pc)`: both bytes executable, then the little-endian 16-bit word (R50). -/
def fetch (s : State) : Result InstWord :=
  if s.memMap.executable s.pc && s.memMap.executable (s.pc + 1#32) then .next (s.mem.half s.pc)
  else .fault (.instructionAccessFault s.pc)

/-- A step is due and `pc = END_PC`: the run has ended (R25, R196). -/
def State.ended (s : State) : Bool := s.endPc == some s.pc

/-- The word placed where the next step fetches: its two bytes at pc, executable there, and END_PC not at pc. It stands for
the placement R195 leaves to the host; how is the model's choice (log entry 8). No step does it. -/
def State.placeWord (s : State) (w : InstWord) : State :=
  { s with
    mem := s.mem.setHalf s.pc w
    memMap := ⟨s.pc, 2, false, false, true⟩ :: s.memMap
    endPc := if s.ended then none else s.endPc }

end Sys2Proof.Machine
end

