-- ==== Sys2Proof/Machine/Quadrant0.lean ====
section
/-! DEFINITION. The instructions of quadrant 0 (spec/40_quadrant0.md): C.ADDI4SPN, C.LW, C.SW. Its Reserved form stands in
`Reserved.lean`. -/

namespace Sys2Proof.Machine

/-- R110: `x[8 + rd'] <- x[2] + zext_32(nzuimm)`. -/
def execAddi4spn (rd : CReg) (nzuimm : BitVec 10) (s : State) : Host.Outcome State Fault Refusal :=
  writeBack rd.reg (aluAdd (s.reg spReg) (operandAddi4spn nzuimm)) s

/-- R112: `x[8 + rd'] <- MemRead(addr, 4)`, the address from the old value of the base register. -/
def execLw (rd rs1 : CReg) (uimm : BitVec 7) (s : State) : Host.Outcome State Fault Refusal :=
  andThen (memRead (dataAddr rs1 uimm s) s) fun v => writeBack rd.reg v s

/-- R113: `MemWrite(addr, 4, x[8 + rs2'])`. -/
def execSw (rs2 rs1 : CReg) (uimm : BitVec 7) (s : State) : Host.Outcome State Fault Refusal :=
  andThen (memWrite (dataAddr rs1 uimm s) (s.reg rs2.reg) s) retire

end Sys2Proof.Machine
end

