-- ==== Sys2Proof/Machine/Quadrant1Alu.lean ====
section
/-! DEFINITION. The shifts and register arithmetic of quadrant 1 (spec/42_quadrant1_alu.md): C.SRLI, C.SRAI and their HINTs,
C.ANDI, C.SUB, C.XOR. The Reserved words with `shamt[5] = 1` stand in `Reserved.lean`. -/

namespace Sys2Proof.Machine

/-- R140: `x[8 + rd'] <- x[8 + rd'] >> shamt`. -/
def execSrli (rd : CReg) (shamt : BitVec 5) (s : State) : Host.Outcome State Fault Refusal :=
  writeBack rd.reg (aluShiftRightLogical (s.reg rd.reg) (operandShamt shamt)) s

/-- R93, R141: a HINT, only `pc <- pc + 2`. The register has no effect. -/
def execHintSrliShamt0 (_rd : CReg) (s : State) : Host.Outcome State Fault Refusal :=
  retire s

/-- R142: `x[8 + rd'] <- x[8 + rd'] >>s shamt`. -/
def execSrai (rd : CReg) (shamt : BitVec 5) (s : State) : Host.Outcome State Fault Refusal :=
  writeBack rd.reg (aluShiftRightArithmetic (s.reg rd.reg) (operandShamt shamt)) s

/-- R93, R143: a HINT, only `pc <- pc + 2`. The register has no effect. -/
def execHintSraiShamt0 (_rd : CReg) (s : State) : Host.Outcome State Fault Refusal :=
  retire s

/-- R145: `x[8 + rd'] <- x[8 + rd'] & sext_32(imm)`. -/
def execAndi (rd : CReg) (imm : BitVec 6) (s : State) : Host.Outcome State Fault Refusal :=
  writeBack rd.reg (aluAnd (s.reg rd.reg) (operandImm6 imm)) s

/-- R146: `x[8 + rd'] <- x[8 + rd'] - x[8 + rs2']`, both read before the write. -/
def execSub (rd rs2 : CReg) (s : State) : Host.Outcome State Fault Refusal :=
  writeBack rd.reg (aluSub (s.reg rd.reg) (s.reg rs2.reg)) s

/-- R147: `x[8 + rd'] <- x[8 + rd'] ^ x[8 + rs2']`, both read before the write. -/
def execXor (rd rs2 : CReg) (s : State) : Host.Outcome State Fault Refusal :=
  writeBack rd.reg (aluXor (s.reg rd.reg) (s.reg rs2.reg)) s

end Sys2Proof.Machine
end

