-- ==== Sys2Proof/Machine/Quadrant1Imm.lean ====
section
/-! DEFINITION. The immediate and jump instructions of quadrant 1 (spec/41_quadrant1_imm_jump.md): C.ADDI, C.NOP, C.JAL, C.LI
and its HINT, C.LUI, C.ADDI16SP. Their Reserved forms stand in `Reserved.lean`. -/

namespace Sys2Proof.Machine

/-- R120: `x[rd] <- x[rd] + sext_32(imm)`; with `rd = 0` the sum is discarded. -/
def execAddi (rd : Reg) (imm : BitVec 6) (s : State) : Host.Outcome State Fault Refusal :=
  writeBack rd (aluAdd (s.reg rd) (operandImm6 imm)) s

/-- R121: only `pc <- pc + 2`. -/
def execNop (s : State) : Host.Outcome State Fault Refusal :=
  retire s

/-- R122: `x[1] <- pc + 2`, `pc <- pc + sext_32(imm)`, both from the pc of this C.JAL (R199). -/
def execJal (imm : BitVec 12) (s : State) : Host.Outcome State Fault Refusal :=
  .next ((s.setReg raReg s.nextPc).setPc (aluAdd s.pc (operandJal imm)))

/-- R123: `x[rd] <- sext_32(imm)`. -/
def execLi (rd : Reg) (imm : BitVec 6) (s : State) : Host.Outcome State Fault Refusal :=
  writeBack rd (operandImm6 imm) s

/-- R93, R124: a HINT, only `pc <- pc + 2`. The immediate has no effect. -/
def execHintLiRd0 (_imm : BitVec 6) (s : State) : Host.Outcome State Fault Refusal :=
  retire s

/-- R125: `x[rd] <- sext_32` of the six bits with 12 zeros below; a zero immediate writes 0 (R95 (c)). -/
def execLui (rd : Reg) (imm : BitVec 6) (s : State) : Host.Outcome State Fault Refusal :=
  writeBack rd (operandLui imm) s

/-- R127: `x[2] <- x[2] + sext_32(imm)`. -/
def execAddi16sp (imm : BitVec 10) (s : State) : Host.Outcome State Fault Refusal :=
  writeBack spReg (aluAdd (s.reg spReg) (operandAddi16sp imm)) s

end Sys2Proof.Machine
end

