-- ==== Sys2Proof/WellFormed.lean ====
section
/-! DEFINITION. Which operand values an encoding admits (the constraints of spec/30_encoding.md R80 to R95 and of the
instruction rules; R15 says what a constraint is). -/

namespace Sys2Proof

/-- The operands are ones some 16-bit word encodes for this row of the opcode table. -/
def Instr.wf : Instr → Bool
  | .addi4spn _ nzuimm => nzuimm != 0 && nzuimm.extractLsb' 0 2 == 0      -- R80, R110: 4, 8, ..., 1020
  | .reservedAddi4spnImm0 _ => true
  | .lw _ _ uimm => uimm.extractLsb' 0 2 == 0                             -- R81: 0, 4, ..., 124
  | .sw _ _ uimm => uimm.extractLsb' 0 2 == 0                             -- R81: 0, 4, ..., 124
  | .nop => true
  | .addi rd imm => !(rd == 0 && imm == 0)                                -- R120, R121: that word is C.NOP
  | .jal imm => imm.extractLsb' 0 1 == 0                                  -- R83: even
  | .li rd _ => rd != 0                                                   -- R123
  | .hintLiRd0 _ => true
  | .lui rd _ => rd != 0 && rd != 2                                       -- R125; a zero immediate is allowed, R95 (c)
  | .reservedLuiRd0 _ => true
  | .addi16sp imm => imm != 0 && imm.extractLsb' 0 4 == 0                 -- R85, R127: -512, ..., 496 without 0
  | .reservedAddi16spImm0 => true
  | .srli _ shamt => shamt != 0                                           -- R86, R140
  | .hintSrliShamt0 _ => true
  | .srai _ shamt => shamt != 0                                           -- R86, R142
  | .hintSraiShamt0 _ => true
  | .reservedShiftShamt5 _ _ _ => true
  | .andi _ _ => true                                                     -- R95 (d)
  | .sub _ _ => true
  | .xor _ _ => true
  | .undocQ0F001 _ => true
  | .undocQ0F011 _ => true
  | .undocQ0F100 _ => true
  | .undocQ0F101 _ => true
  | .undocQ0F111 _ => true
  | .undocQ1F101 _ => true
  | .undocQ1F110 _ => true
  | .undocQ1F111 _ => true
  | .undocQ1Ca1x _ _ => true
  | .undocQ1F100111 _ => true
  | .undocQ2 _ => true
  | .undocOp11 _ => true

end Sys2Proof
end

