-- ==== Sys2Proof/Decode.lean ====
section
/-! DEFINITION. Decoding, total on every word (spec/30_encoding.md R89), and on any bytes, rejecting by name; then the
encoder, from the same rules (R88, R90 to R96); then the opcode table itself. -/

namespace Sys2Proof

/-! ## The fields of a word (R72 to R79) -/

/-- `inst[1:0]`, the quadrant (R70). -/
def opField (w : InstWord) : BitVec 2 := w.extractLsb' 0 2

/-- `inst[15:13]` (R70). -/
def funct3 (w : InstWord) : BitVec 3 := w.extractLsb' 13 3

/-- `inst[11:10]`, which selects within `op = 01`, `funct3 = 100` (R77, R91). -/
def funct2Cb (w : InstWord) : BitVec 2 := w.extractLsb' 10 2

/-- `inst[6:5]`, which selects within the CA group (R78, R91). -/
def funct2Ca (w : InstWord) : BitVec 2 := w.extractLsb' 5 2

/-- `inst[12]`: an immediate's top bit, or `shamt[5]` (R77). -/
def bit12 (w : InstWord) : BitVec 1 := w.extractLsb' 12 1

/-- `inst[11:7]`, the 5-bit register field `rd` of CI (R75, R79). -/
def rdField (w : InstWord) : Reg := ⟨(w.extractLsb' 7 5).toNat, (w.extractLsb' 7 5).isLt⟩

/-- `inst[9:7]`, the 3-bit register field of CL, CS, CB and CA (R73, R74, R77, R78, R79). -/
def cregHigh (w : InstWord) : CReg := ⟨(w.extractLsb' 7 3).toNat, (w.extractLsb' 7 3).isLt⟩

/-- `inst[4:2]`, the 3-bit register field of CIW, CL, CS and CA (R72, R73, R74, R78, R79). -/
def cregLow (w : InstWord) : CReg := ⟨(w.extractLsb' 2 3).toNat, (w.extractLsb' 2 3).isLt⟩

/-! ## The immediates (R80 to R86) -/

/-- R80: `nzuimm[9:0] = (inst[10:7], inst[12:11], inst[5], inst[6], 00)`. -/
def immAddi4spn (w : InstWord) : BitVec 10 :=
  w.extractLsb' 7 4 ++ w.extractLsb' 11 2 ++ w.extractLsb' 5 1 ++ w.extractLsb' 6 1 ++ 0b00#2

/-- R81: `uimm[6:0] = (inst[5], inst[12:10], inst[6], 00)`. -/
def immMem (w : InstWord) : BitVec 7 :=
  w.extractLsb' 5 1 ++ w.extractLsb' 10 3 ++ w.extractLsb' 6 1 ++ 0b00#2

/-- R82, R84: `imm[5:0] = (inst[12], inst[6:2])`. -/
def imm6 (w : InstWord) : BitVec 6 :=
  w.extractLsb' 12 1 ++ w.extractLsb' 2 5

/-- R83: `imm[11:0] = (inst[12], inst[8], inst[10:9], inst[6], inst[7], inst[2], inst[11], inst[5:3], 0)`. -/
def immJal (w : InstWord) : BitVec 12 :=
  w.extractLsb' 12 1 ++ w.extractLsb' 8 1 ++ w.extractLsb' 9 2 ++ w.extractLsb' 6 1 ++ w.extractLsb' 7 1
    ++ w.extractLsb' 2 1 ++ w.extractLsb' 11 1 ++ w.extractLsb' 3 3 ++ 0b0#1

/-- R85: `imm[9:0] = (inst[12], inst[4:3], inst[5], inst[2], inst[6], 0000)`. -/
def immAddi16sp (w : InstWord) : BitVec 10 :=
  w.extractLsb' 12 1 ++ w.extractLsb' 3 2 ++ w.extractLsb' 5 1 ++ w.extractLsb' 2 1 ++ w.extractLsb' 6 1 ++ 0b0000#4

/-- R86: `shamt[4:0] = inst[6:2]`. -/
def shamtField (w : InstWord) : BitVec 5 := w.extractLsb' 2 5

/-! ## The decoder (R89) -/

/-- `op = 00` (R90). -/
def decodeQ0 (w : InstWord) : Instr :=
  if funct3 w = 0b000#3 then
    if w.extractLsb' 5 8 = 0#8 then .reservedAddi4spnImm0 (cregLow w) else .addi4spn (cregLow w) (immAddi4spn w)
  else if funct3 w = 0b001#3 then .undocQ0F001 (w.extractLsb' 2 11)
  else if funct3 w = 0b010#3 then .lw (cregLow w) (cregHigh w) (immMem w)
  else if funct3 w = 0b011#3 then .undocQ0F011 (w.extractLsb' 2 11)
  else if funct3 w = 0b100#3 then .undocQ0F100 (w.extractLsb' 2 11)
  else if funct3 w = 0b101#3 then .undocQ0F101 (w.extractLsb' 2 11)
  else if funct3 w = 0b110#3 then .sw (cregLow w) (cregHigh w) (immMem w)
  else .undocQ0F111 (w.extractLsb' 2 11)

/-- `op = 01`, `funct3 = 100` (R91, R94). -/
def decodeQ1Alu (w : InstWord) : Instr :=
  if funct2Cb w = 0b00#2 then
    if bit12 w = 1#1 then .reservedShiftShamt5 .srli (cregHigh w) (shamtField w)
    else if shamtField w = 0#5 then .hintSrliShamt0 (cregHigh w)
    else .srli (cregHigh w) (shamtField w)
  else if funct2Cb w = 0b01#2 then
    if bit12 w = 1#1 then .reservedShiftShamt5 .srai (cregHigh w) (shamtField w)
    else if shamtField w = 0#5 then .hintSraiShamt0 (cregHigh w)
    else .srai (cregHigh w) (shamtField w)
  else if funct2Cb w = 0b10#2 then .andi (cregHigh w) (imm6 w)
  else if bit12 w = 1#1 then .undocQ1F100111 (w.extractLsb' 2 8)
  else if funct2Ca w = 0b00#2 then .sub (cregHigh w) (cregLow w)
  else if funct2Ca w = 0b01#2 then .xor (cregHigh w) (cregLow w)
  else .undocQ1Ca1x (w.extractLsb' 7 3) (w.extractLsb' 2 4)

/-- `op = 01` (R91). -/
def decodeQ1 (w : InstWord) : Instr :=
  if funct3 w = 0b000#3 then
    if rdField w = 0 ∧ imm6 w = 0#6 then .nop else .addi (rdField w) (imm6 w)
  else if funct3 w = 0b001#3 then .jal (immJal w)
  else if funct3 w = 0b010#3 then
    if rdField w = 0 then .hintLiRd0 (imm6 w) else .li (rdField w) (imm6 w)
  else if funct3 w = 0b011#3 then
    if rdField w = 2 then
      if imm6 w = 0#6 then .reservedAddi16spImm0 else .addi16sp (immAddi16sp w)
    else if rdField w = 0 then .reservedLuiRd0 (imm6 w)
    else .lui (rdField w) (imm6 w)
  else if funct3 w = 0b100#3 then decodeQ1Alu w
  else if funct3 w = 0b101#3 then .undocQ1F101 (w.extractLsb' 2 11)
  else if funct3 w = 0b110#3 then .undocQ1F110 (w.extractLsb' 2 11)
  else .undocQ1F111 (w.extractLsb' 2 11)

/-- The decoder, a total function of the 16 bits alone (R89). A word the spec gives no meaning decodes to the row of the
undocumented space that holds it, and it is that row's meaning that refuses it (R96). -/
def decode (w : InstWord) : Instr :=
  if opField w = 0b00#2 then decodeQ0 w
  else if opField w = 0b01#2 then decodeQ1 w
  else if opField w = 0b10#2 then .undocQ2 (w.extractLsb' 2 14)
  else .undocOp11 (w.extractLsb' 2 14)

/-! ## Words and bytes (R43) -/

/-- A word's two bytes as they lie in memory, the least significant at the lower address (R43). -/
def wordBytes (w : InstWord) : List Byte := [w.extractLsb' 0 8, w.extractLsb' 8 8]

/-- Why a list of bytes holds no instruction. -/
inductive DecodeError where
  /-- Fewer than the 2 bytes every instruction takes (R70). Raised by `decodeBytes` alone, never by a step. -/
  | truncated
deriving DecidableEq, Repr

/-- The instruction at the front of a list of bytes, and the bytes after it; little-endian (R43). -/
def decodeBytes : List Byte → Except DecodeError (Instr × List Byte)
  | b0 :: b1 :: rest => .ok (decode (b1 ++ b0), rest)
  | [_] => .error .truncated
  | [] => .error .truncated

/-- The instruction an instruction's bits, numbered as spec/opcode_table.json numbers them, decode to. `nbits` is the row's
width; bits above it are 0. No instruction is longer than 16 bits (R70). -/
def decodeTableWord (nbits w : Nat) : Option Instr :=
  if nbits ≤ 16 then
    match decodeBytes (wordBytes (BitVec.ofNat 16 (w % 2 ^ nbits))) with
    | .ok (i, []) => some i
    | .ok (_, _ :: _) => none
    | .error _ => none
  else none

/-! ## The encoder (R88, R90 to R96) -/

/-- A 5-bit register field (R79). -/
def regBits (r : Reg) : BitVec 5 := BitVec.ofNat 5 r.val

/-- A 3-bit register field (R79). -/
def cregBits (f : CReg) : BitVec 3 := BitVec.ofNat 3 f.val

/-- `inst[11:10]` of a shift (R91). -/
def ShiftKind.bits : ShiftKind → BitVec 2
  | .srli => 0b00#2
  | .srai => 0b01#2

/-- The word of a well-formed instruction: the field layouts of R72 to R78 filled as R88 says. -/
def encode : Instr → InstWord
  | .addi4spn rd v => 0b000#3 ++ v.extractLsb' 4 2 ++ v.extractLsb' 6 4 ++ v.extractLsb' 2 1 ++ v.extractLsb' 3 1 ++ cregBits rd ++ 0b00#2
  | .reservedAddi4spnImm0 rd => 0b000#3 ++ 0#8 ++ cregBits rd ++ 0b00#2
  | .lw rd rs1 v => 0b010#3 ++ v.extractLsb' 3 3 ++ cregBits rs1 ++ v.extractLsb' 2 1 ++ v.extractLsb' 6 1 ++ cregBits rd ++ 0b00#2
  | .sw rs2 rs1 v => 0b110#3 ++ v.extractLsb' 3 3 ++ cregBits rs1 ++ v.extractLsb' 2 1 ++ v.extractLsb' 6 1 ++ cregBits rs2 ++ 0b00#2
  | .nop => 0x0001#16
  | .addi rd v => 0b000#3 ++ v.extractLsb' 5 1 ++ regBits rd ++ v.extractLsb' 0 5 ++ 0b01#2
  | .jal v => 0b001#3 ++ v.extractLsb' 11 1 ++ v.extractLsb' 4 1 ++ v.extractLsb' 8 2 ++ v.extractLsb' 10 1 ++ v.extractLsb' 6 1 ++ v.extractLsb' 7 1 ++ v.extractLsb' 1 3 ++ v.extractLsb' 5 1 ++ 0b01#2
  | .li rd v => 0b010#3 ++ v.extractLsb' 5 1 ++ regBits rd ++ v.extractLsb' 0 5 ++ 0b01#2
  | .hintLiRd0 v => 0b010#3 ++ v.extractLsb' 5 1 ++ 0b00000#5 ++ v.extractLsb' 0 5 ++ 0b01#2
  | .lui rd v => 0b011#3 ++ v.extractLsb' 5 1 ++ regBits rd ++ v.extractLsb' 0 5 ++ 0b01#2
  | .reservedLuiRd0 v => 0b011#3 ++ v.extractLsb' 5 1 ++ 0b00000#5 ++ v.extractLsb' 0 5 ++ 0b01#2
  | .addi16sp v => 0b011#3 ++ v.extractLsb' 9 1 ++ 0b00010#5 ++ v.extractLsb' 4 1 ++ v.extractLsb' 6 1 ++ v.extractLsb' 7 2 ++ v.extractLsb' 5 1 ++ 0b01#2
  | .reservedAddi16spImm0 => 0x6101#16
  | .srli rd sh => 0b100#3 ++ 0b0#1 ++ 0b00#2 ++ cregBits rd ++ sh ++ 0b01#2
  | .hintSrliShamt0 rd => 0b100#3 ++ 0b0#1 ++ 0b00#2 ++ cregBits rd ++ 0b00000#5 ++ 0b01#2
  | .srai rd sh => 0b100#3 ++ 0b0#1 ++ 0b01#2 ++ cregBits rd ++ sh ++ 0b01#2
  | .hintSraiShamt0 rd => 0b100#3 ++ 0b0#1 ++ 0b01#2 ++ cregBits rd ++ 0b00000#5 ++ 0b01#2
  | .reservedShiftShamt5 k rd sh => 0b100#3 ++ 0b1#1 ++ k.bits ++ cregBits rd ++ sh ++ 0b01#2
  | .andi rd v => 0b100#3 ++ v.extractLsb' 5 1 ++ 0b10#2 ++ cregBits rd ++ v.extractLsb' 0 5 ++ 0b01#2
  | .sub rd rs2 => 0b100011#6 ++ cregBits rd ++ 0b00#2 ++ cregBits rs2 ++ 0b01#2
  | .xor rd rs2 => 0b100011#6 ++ cregBits rd ++ 0b01#2 ++ cregBits rs2 ++ 0b01#2
  | .undocQ0F001 b => 0b001#3 ++ b ++ 0b00#2
  | .undocQ0F011 b => 0b011#3 ++ b ++ 0b00#2
  | .undocQ0F100 b => 0b100#3 ++ b ++ 0b00#2
  | .undocQ0F101 b => 0b101#3 ++ b ++ 0b00#2
  | .undocQ0F111 b => 0b111#3 ++ b ++ 0b00#2
  | .undocQ1F101 b => 0b101#3 ++ b ++ 0b01#2
  | .undocQ1F110 b => 0b110#3 ++ b ++ 0b01#2
  | .undocQ1F111 b => 0b111#3 ++ b ++ 0b01#2
  | .undocQ1Ca1x hi lo => 0b100011#6 ++ hi ++ 0b1#1 ++ lo ++ 0b01#2
  | .undocQ1F100111 b => 0b100111#6 ++ b ++ 0b01#2
  | .undocQ2 b => b ++ 0b10#2
  | .undocOp11 b => b ++ 0b11#2

/-- An instruction's bytes as they lie in memory (R43). -/
def encodeBytes (i : Instr) : List Byte := wordBytes (encode i)

/-! ## The opcode table (the machine-readable copy of R89 to R96) -/

/-- One row of spec/opcode_table.json. -/
structure OpcodeRow where
  /-- The row's name, letter for letter. -/
  mnemonic : String
  /-- Which bits the row fixes. -/
  mask : InstWord
  /-- What it fixes them to. -/
  pattern : InstWord
  /-- The (mask, match) pairs of the rows taken out of this one. -/
  exclude : List (InstWord × InstWord)
deriving DecidableEq, Repr

/-- A word belongs to a row (the paragraph after the census of R97). -/
def OpcodeRow.admits (r : OpcodeRow) (w : InstWord) : Bool :=
  w &&& r.mask == r.pattern && r.exclude.all fun e => w &&& e.1 != e.2

/-- The rows of classes instruction, hint and reserved. -/
def documentedRows : List OpcodeRow := [
  ⟨"C.ADDI4SPN", 0xE003, 0x0000, [(0xFFE3, 0x0000)]⟩,
  ⟨"RESERVED.C.ADDI4SPN.imm0", 0xFFE3, 0x0000, []⟩,
  ⟨"C.LW", 0xE003, 0x4000, []⟩,
  ⟨"C.SW", 0xE003, 0xC000, []⟩,
  ⟨"C.NOP", 0xFFFF, 0x0001, []⟩,
  ⟨"C.ADDI", 0xE003, 0x0001, [(0xFFFF, 0x0001)]⟩,
  ⟨"C.JAL", 0xE003, 0x2001, []⟩,
  ⟨"C.LI", 0xE003, 0x4001, [(0xEF83, 0x4001)]⟩,
  ⟨"HINT.C.LI.rd0", 0xEF83, 0x4001, []⟩,
  ⟨"C.LUI", 0xE003, 0x6001, [(0xEF83, 0x6001), (0xEF83, 0x6101)]⟩,
  ⟨"RESERVED.C.LUI.rd0", 0xEF83, 0x6001, []⟩,
  ⟨"C.ADDI16SP", 0xEF83, 0x6101, [(0xFFFF, 0x6101)]⟩,
  ⟨"RESERVED.C.ADDI16SP.imm0", 0xFFFF, 0x6101, []⟩,
  ⟨"C.SRLI", 0xFC03, 0x8001, [(0xFC7F, 0x8001)]⟩,
  ⟨"HINT.C.SRLI.shamt0", 0xFC7F, 0x8001, []⟩,
  ⟨"C.SRAI", 0xFC03, 0x8401, [(0xFC7F, 0x8401)]⟩,
  ⟨"HINT.C.SRAI.shamt0", 0xFC7F, 0x8401, []⟩,
  ⟨"RESERVED.C.SRLI_C.SRAI.shamt5", 0xF803, 0x9001, []⟩,
  ⟨"C.ANDI", 0xEC03, 0x8801, []⟩,
  ⟨"C.SUB", 0xFC63, 0x8C01, []⟩,
  ⟨"C.XOR", 0xFC63, 0x8C21, []⟩]

/-- The rows of class undocumented. -/
def undocumentedRows : List OpcodeRow := [
  ⟨"UNDOCUMENTED.Q0.funct3_001", 0xE003, 0x2000, []⟩,
  ⟨"UNDOCUMENTED.Q0.funct3_011", 0xE003, 0x6000, []⟩,
  ⟨"UNDOCUMENTED.Q0.funct3_100", 0xE003, 0x8000, []⟩,
  ⟨"UNDOCUMENTED.Q0.funct3_101", 0xE003, 0xA000, []⟩,
  ⟨"UNDOCUMENTED.Q0.funct3_111", 0xE003, 0xE000, []⟩,
  ⟨"UNDOCUMENTED.Q1.funct3_101", 0xE003, 0xA001, []⟩,
  ⟨"UNDOCUMENTED.Q1.funct3_110", 0xE003, 0xC001, []⟩,
  ⟨"UNDOCUMENTED.Q1.funct3_111", 0xE003, 0xE001, []⟩,
  ⟨"UNDOCUMENTED.Q1.100011.funct2_1x", 0xFC43, 0x8C41, []⟩,
  ⟨"UNDOCUMENTED.Q1.100111", 0xFC03, 0x9C01, []⟩,
  ⟨"UNDOCUMENTED.Q2", 0x0003, 0x0002, []⟩,
  ⟨"UNDOCUMENTED.OP11", 0x0003, 0x0003, []⟩]

/-- spec/opcode_table.json, in its order. -/
def opcodeTable : List OpcodeRow := documentedRows ++ undocumentedRows

/-- The row of `opcodeTable` a constructor stands for, by its place in the table. -/
def Instr.row : Instr → Nat
  | .addi4spn _ _ => 0
  | .reservedAddi4spnImm0 _ => 1
  | .lw _ _ _ => 2
  | .sw _ _ _ => 3
  | .nop => 4
  | .addi _ _ => 5
  | .jal _ => 6
  | .li _ _ => 7
  | .hintLiRd0 _ => 8
  | .lui _ _ => 9
  | .reservedLuiRd0 _ => 10
  | .addi16sp _ => 11
  | .reservedAddi16spImm0 => 12
  | .srli _ _ => 13
  | .hintSrliShamt0 _ => 14
  | .srai _ _ => 15
  | .hintSraiShamt0 _ => 16
  | .reservedShiftShamt5 _ _ _ => 17
  | .andi _ _ => 18
  | .sub _ _ => 19
  | .xor _ _ => 20
  | .undocQ0F001 _ => 21
  | .undocQ0F011 _ => 22
  | .undocQ0F100 _ => 23
  | .undocQ0F101 _ => 24
  | .undocQ0F111 _ => 25
  | .undocQ1F101 _ => 26
  | .undocQ1F110 _ => 27
  | .undocQ1F111 _ => 28
  | .undocQ1Ca1x _ _ => 29
  | .undocQ1F100111 _ => 30
  | .undocQ2 _ => 31
  | .undocOp11 _ => 32

end Sys2Proof
end

