-- ==== Sys2Proof/Machine/Reserved.lean ====
section
/-! DEFINITION. The Reserved encodings (spec/30_encoding.md R92): executing one raises IllegalInstruction(inst), which records
the word (spec/60_exceptions.md R161), and changes nothing. -/

namespace Sys2Proof.Machine

/-- `raise IllegalInstruction(inst)` with the instruction's own word (R161). -/
def illegal (i : Instr) (s : State) : Host.Outcome State Fault Refusal :=
  raise s (.illegalInstruction (encode i))

/-- R111: C.ADDI4SPN with a zero immediate. -/
def execReservedAddi4spnImm0 (rd : CReg) (s : State) : Host.Outcome State Fault Refusal :=
  illegal (.reservedAddi4spnImm0 rd) s

/-- R126: C.LUI with rd = x0. -/
def execReservedLuiRd0 (imm : BitVec 6) (s : State) : Host.Outcome State Fault Refusal :=
  illegal (.reservedLuiRd0 imm) s

/-- R128: C.ADDI16SP with a zero immediate. -/
def execReservedAddi16spImm0 (s : State) : Host.Outcome State Fault Refusal :=
  illegal .reservedAddi16spImm0 s

/-- R94, R144: a shift with shamt[5] = 1, whatever inst[6:2] holds. -/
def execReservedShiftShamt5 (kind : ShiftKind) (rd : CReg) (shamt : BitVec 5) (s : State) : Host.Outcome State Fault Refusal :=
  illegal (.reservedShiftShamt5 kind rd shamt) s

end Sys2Proof.Machine
end

