-- ==== Sys2Proof/Machine/Undocumented.lean ====
section
/-! DEFINITION. The undocumented words (spec/30_encoding.md R96): the spec gives them neither an operation nor a fault, and
executing one is `refuse Undocumented(inst)` (spec/60_exceptions.md R168). -/

namespace Sys2Proof.Machine

/-- `refuse Undocumented(inst)` with the instruction's own word (R168). -/
def undocumentedWord (i : Instr) : Host.Outcome State Fault Refusal :=
  refuse (.undocumented (encode i))

/-- R96: op = 00, funct3 = 001. -/
def execUndocQ0F001 (bits : BitVec 11) (_s : State) : Host.Outcome State Fault Refusal :=
  undocumentedWord (.undocQ0F001 bits)

/-- R96: op = 00, funct3 = 011. -/
def execUndocQ0F011 (bits : BitVec 11) (_s : State) : Host.Outcome State Fault Refusal :=
  undocumentedWord (.undocQ0F011 bits)

/-- R96: op = 00, funct3 = 100. -/
def execUndocQ0F100 (bits : BitVec 11) (_s : State) : Host.Outcome State Fault Refusal :=
  undocumentedWord (.undocQ0F100 bits)

/-- R96: op = 00, funct3 = 101. -/
def execUndocQ0F101 (bits : BitVec 11) (_s : State) : Host.Outcome State Fault Refusal :=
  undocumentedWord (.undocQ0F101 bits)

/-- R96: op = 00, funct3 = 111. -/
def execUndocQ0F111 (bits : BitVec 11) (_s : State) : Host.Outcome State Fault Refusal :=
  undocumentedWord (.undocQ0F111 bits)

/-- R96: op = 01, funct3 = 101. -/
def execUndocQ1F101 (bits : BitVec 11) (_s : State) : Host.Outcome State Fault Refusal :=
  undocumentedWord (.undocQ1F101 bits)

/-- R96: op = 01, funct3 = 110. -/
def execUndocQ1F110 (bits : BitVec 11) (_s : State) : Host.Outcome State Fault Refusal :=
  undocumentedWord (.undocQ1F110 bits)

/-- R96: op = 01, funct3 = 111. -/
def execUndocQ1F111 (bits : BitVec 11) (_s : State) : Host.Outcome State Fault Refusal :=
  undocumentedWord (.undocQ1F111 bits)

/-- R96: op = 01, inst[15:10] = 100011, inst[6] = 1. -/
def execUndocQ1Ca1x (hi : BitVec 3) (lo : BitVec 4) (_s : State) : Host.Outcome State Fault Refusal :=
  undocumentedWord (.undocQ1Ca1x hi lo)

/-- R96: op = 01, inst[15:10] = 100111. -/
def execUndocQ1F100111 (bits : BitVec 8) (_s : State) : Host.Outcome State Fault Refusal :=
  undocumentedWord (.undocQ1F100111 bits)

/-- R96: op = 10. -/
def execUndocQ2 (bits : BitVec 14) (_s : State) : Host.Outcome State Fault Refusal :=
  undocumentedWord (.undocQ2 bits)

/-- R51, R96: op = 11; no further byte is fetched. -/
def execUndocOp11 (bits : BitVec 14) (_s : State) : Host.Outcome State Fault Refusal :=
  undocumentedWord (.undocOp11 bits)

end Sys2Proof.Machine
end

