-- ==== Sys2Proof/Machine/Dispatch.lean ====
section
/-! DEFINITION. What each instruction does: one direct call of its meaning for each constructor (step (4) of
spec/10_state.md R25). -/

namespace Sys2Proof.Machine

/-- Perform the rule of an instruction (R25). -/
def exec (i : Instr) (s : State) : Host.Outcome State Fault Refusal :=
  match i with
  | .addi4spn rd nzuimm => Sys2Proof.Machine.execAddi4spn rd nzuimm s
  | .reservedAddi4spnImm0 rd => Sys2Proof.Machine.execReservedAddi4spnImm0 rd s
  | .lw rd rs1 uimm => Sys2Proof.Machine.execLw rd rs1 uimm s
  | .sw rs2 rs1 uimm => Sys2Proof.Machine.execSw rs2 rs1 uimm s
  | .nop => Sys2Proof.Machine.execNop s
  | .addi rd imm => Sys2Proof.Machine.execAddi rd imm s
  | .jal imm => Sys2Proof.Machine.execJal imm s
  | .li rd imm => Sys2Proof.Machine.execLi rd imm s
  | .hintLiRd0 imm => Sys2Proof.Machine.execHintLiRd0 imm s
  | .lui rd imm => Sys2Proof.Machine.execLui rd imm s
  | .reservedLuiRd0 imm => Sys2Proof.Machine.execReservedLuiRd0 imm s
  | .addi16sp imm => Sys2Proof.Machine.execAddi16sp imm s
  | .reservedAddi16spImm0 => Sys2Proof.Machine.execReservedAddi16spImm0 s
  | .srli rd shamt => Sys2Proof.Machine.execSrli rd shamt s
  | .hintSrliShamt0 rd => Sys2Proof.Machine.execHintSrliShamt0 rd s
  | .srai rd shamt => Sys2Proof.Machine.execSrai rd shamt s
  | .hintSraiShamt0 rd => Sys2Proof.Machine.execHintSraiShamt0 rd s
  | .reservedShiftShamt5 kind rd shamt => Sys2Proof.Machine.execReservedShiftShamt5 kind rd shamt s
  | .andi rd imm => Sys2Proof.Machine.execAndi rd imm s
  | .sub rd rs2 => Sys2Proof.Machine.execSub rd rs2 s
  | .xor rd rs2 => Sys2Proof.Machine.execXor rd rs2 s
  | .undocQ0F001 bits => Sys2Proof.Machine.execUndocQ0F001 bits s
  | .undocQ0F011 bits => Sys2Proof.Machine.execUndocQ0F011 bits s
  | .undocQ0F100 bits => Sys2Proof.Machine.execUndocQ0F100 bits s
  | .undocQ0F101 bits => Sys2Proof.Machine.execUndocQ0F101 bits s
  | .undocQ0F111 bits => Sys2Proof.Machine.execUndocQ0F111 bits s
  | .undocQ1F101 bits => Sys2Proof.Machine.execUndocQ1F101 bits s
  | .undocQ1F110 bits => Sys2Proof.Machine.execUndocQ1F110 bits s
  | .undocQ1F111 bits => Sys2Proof.Machine.execUndocQ1F111 bits s
  | .undocQ1Ca1x hi lo => Sys2Proof.Machine.execUndocQ1Ca1x hi lo s
  | .undocQ1F100111 bits => Sys2Proof.Machine.execUndocQ1F100111 bits s
  | .undocQ2 bits => Sys2Proof.Machine.execUndocQ2 bits s
  | .undocOp11 bits => Sys2Proof.Machine.execUndocOp11 bits s

end Sys2Proof.Machine
end

