-- ==== Sys2Proof/Machine/Step.lean ====
section
/-! DEFINITION. One step of the hart (spec/10_state.md R25), and the placing of a word where the next step fetches. -/

namespace Sys2Proof.Machine

/-- R25: (1) at END_PC the run has ended, nothing is fetched and the final state stays as it is (log entry 7); (2) fetch
the word at pc; (3) decode it; (4) perform it. -/
def step (s : State) : Host.Outcome State Fault Refusal :=
  if s.ended then .next s
  else andThen (fetch s) fun w => exec (decode w) s

/-- `s` with an instruction, its bits numbered as spec/opcode_table.json numbers them, stored where the next step fetches:
the placement of a program by the host (R195, log entry 8). The bits above `nbits` are 0. -/
def State.withFetchWord (s : State) (nbits w : Nat) : State :=
  s.placeWord (BitVec.ofNat 16 (w % 2 ^ nbits))

end Sys2Proof.Machine
end

