-- ==== Sys2Proof/Safety.lean ====
section
/-! DEFINITION. The terms claims are made in: what a step leaves alone, which registers an instruction reads and writes, the
invariant of every reachable state, and what it is for a run to end. -/

namespace Sys2Proof.Machine

/-! ## Frames -/

/-- Every byte of memory reads as before. -/
def SameMemory (s t : State) : Prop := ∀ a : Word, t.mem.byte a = s.mem.byte a

/-- Every register reads as before. -/
def SameRegs (s t : State) : Prop := ∀ r : Reg, t.reg r = s.reg r

/-- The launch parameters, which are fixed for a whole run (R34), are as before. -/
def SameLaunch (s t : State) : Prop := t.memMap = s.memMap ∧ t.endPc = s.endPc

/-- `rd` holds `v` and every other register reads as before; with `rd` = x0 nothing is written (R12, R21). -/
def WritesOnly (rd : Reg) (v : Word) (s t : State) : Prop :=
  ∀ r : Reg, t.reg r = if r = rd ∧ r ≠ 0 then v else s.reg r

/-- The whole effect of a register instruction other than C.JAL: `x[rd] <- v`, `pc <- pc + 2`, and nothing else. -/
def RegisterEffect (rd : Reg) (v : Word) (s t : State) : Prop :=
  WritesOnly rd v s t ∧ t.pc = s.pc + 2#32 ∧ SameMemory s t ∧ SameLaunch s t

/-- The whole effect of C.NOP and of a HINT: `pc <- pc + 2`, and nothing else (R93, R121). -/
def PcEffect (s t : State) : Prop :=
  t.pc = s.pc + 2#32 ∧ SameRegs s t ∧ SameMemory s t ∧ SameLaunch s t

end Sys2Proof.Machine

namespace Sys2Proof

/-! ## Classes of instructions, registers read and written -/

/-- The classes of the rows of spec/opcode_table.json. -/
inductive RowClass where
  /-- A documented instruction. -/
  | instruction
  /-- A HINT (R93). -/
  | hint
  /-- A Reserved encoding (R92). -/
  | reserved
  /-- An undocumented word (R96). -/
  | undocumented
deriving DecidableEq, Repr

/-- The class of an instruction's row. -/
def Instr.rowClass : Instr → RowClass
  | .addi4spn _ _ => .instruction
  | .reservedAddi4spnImm0 _ => .reserved
  | .lw _ _ _ => .instruction
  | .sw _ _ _ => .instruction
  | .nop => .instruction
  | .addi _ _ => .instruction
  | .jal _ => .instruction
  | .li _ _ => .instruction
  | .hintLiRd0 _ => .hint
  | .lui _ _ => .instruction
  | .reservedLuiRd0 _ => .reserved
  | .addi16sp _ => .instruction
  | .reservedAddi16spImm0 => .reserved
  | .srli _ _ => .instruction
  | .hintSrliShamt0 _ => .hint
  | .srai _ _ => .instruction
  | .hintSraiShamt0 _ => .hint
  | .reservedShiftShamt5 _ _ _ => .reserved
  | .andi _ _ => .instruction
  | .sub _ _ => .instruction
  | .xor _ _ => .instruction
  | .undocQ0F001 _ => .undocumented
  | .undocQ0F011 _ => .undocumented
  | .undocQ0F100 _ => .undocumented
  | .undocQ0F101 _ => .undocumented
  | .undocQ0F111 _ => .undocumented
  | .undocQ1F101 _ => .undocumented
  | .undocQ1F110 _ => .undocumented
  | .undocQ1F111 _ => .undocumented
  | .undocQ1Ca1x _ _ => .undocumented
  | .undocQ1F100111 _ => .undocumented
  | .undocQ2 _ => .undocumented
  | .undocOp11 _ => .undocumented

/-- The one register an instruction can write, if any; x0 discards (the table after R23). -/
def Instr.dest : Instr → Option Reg
  | .addi4spn rd _ => some rd.reg
  | .reservedAddi4spnImm0 _ => none
  | .lw rd _ _ => some rd.reg
  | .sw _ _ _ => none
  | .nop => none
  | .addi rd _ => some rd
  | .jal _ => some 1
  | .li rd _ => some rd
  | .hintLiRd0 _ => none
  | .lui rd _ => some rd
  | .reservedLuiRd0 _ => none
  | .addi16sp _ => some 2
  | .reservedAddi16spImm0 => none
  | .srli rd _ => some rd.reg
  | .hintSrliShamt0 _ => none
  | .srai rd _ => some rd.reg
  | .hintSraiShamt0 _ => none
  | .reservedShiftShamt5 _ _ _ => none
  | .andi rd _ => some rd.reg
  | .sub rd _ => some rd.reg
  | .xor rd _ => some rd.reg
  | .undocQ0F001 _ => none
  | .undocQ0F011 _ => none
  | .undocQ0F100 _ => none
  | .undocQ0F101 _ => none
  | .undocQ0F111 _ => none
  | .undocQ1F101 _ => none
  | .undocQ1F110 _ => none
  | .undocQ1F111 _ => none
  | .undocQ1Ca1x _ _ => none
  | .undocQ1F100111 _ => none
  | .undocQ2 _ => none
  | .undocOp11 _ => none

/-- The registers an instruction can read (the table after R23). -/
def Instr.sources : Instr → List Reg
  | .addi4spn _ _ => [2]
  | .reservedAddi4spnImm0 _ => []
  | .lw _ rs1 _ => [rs1.reg]
  | .sw rs2 rs1 _ => [rs1.reg, rs2.reg]
  | .nop => []
  | .addi rd _ => [rd]
  | .jal _ => []
  | .li _ _ => []
  | .hintLiRd0 _ => []
  | .lui _ _ => []
  | .reservedLuiRd0 _ => []
  | .addi16sp _ => [2]
  | .reservedAddi16spImm0 => []
  | .srli rd _ => [rd.reg]
  | .hintSrliShamt0 _ => []
  | .srai rd _ => [rd.reg]
  | .hintSraiShamt0 _ => []
  | .reservedShiftShamt5 _ _ _ => []
  | .andi rd _ => [rd.reg]
  | .sub rd rs2 => [rd.reg, rs2.reg]
  | .xor rd rs2 => [rd.reg, rs2.reg]
  | .undocQ0F001 _ => []
  | .undocQ0F011 _ => []
  | .undocQ0F100 _ => []
  | .undocQ0F101 _ => []
  | .undocQ0F111 _ => []
  | .undocQ1F101 _ => []
  | .undocQ1F110 _ => []
  | .undocQ1F111 _ => []
  | .undocQ1Ca1x _ _ => []
  | .undocQ1F100111 _ => []
  | .undocQ2 _ => []
  | .undocOp11 _ => []

end Sys2Proof

namespace Sys2Proof.Machine

/-! ## Fetching and stopping -/

/-- The next step fetches `w`: the run has not ended, both bytes at pc are executable, and they hold `w` (R25, R50). -/
abbrev Fetches (s : State) (w : InstWord) : Prop :=
  s.endPc ≠ some s.pc ∧ s.memMap.executable s.pc = true ∧ s.memMap.executable (s.pc + 1#32) = true ∧
    s.mem.byte (s.pc + 1#32) ++ s.mem.byte s.pc = w

/-- An effective address C.LW and C.SW accept: a multiple of 4 (R46). -/
abbrev Aligned (a : Word) : Prop := a.extractLsb' 0 2 = 0#2

/-- Every one of the 4 byte addresses of an access satisfies a predicate of the map (R47). -/
abbrev AllFour (p : Word → Bool) (a : Word) : Prop :=
  p a = true ∧ p (a + 1#32) = true ∧ p (a + 2#32) = true ∧ p (a + 3#32) = true

/-- Some one of the 4 byte addresses of an access satisfies a predicate of the map (R53). -/
abbrev SomeOfFour (p : Word → Bool) (a : Word) : Prop :=
  p a = true ∨ p (a + 1#32) = true ∨ p (a + 2#32) = true ∨ p (a + 3#32) = true

/-! ## The invariant -/

/-- What the spec promises of every state a run reaches. -/
structure State.Inv (s : State) : Prop where
  /-- The pc is always even (R27). -/
  pcEven : Even32 s.pc
  /-- END_PC, where there is one, is even (R196). -/
  endEven : ∀ e, s.endPc = some e → Even32 e
  /-- Memory keeps its canonical form, so that equal memories are equal data. -/
  memCanonical : s.mem.wf = true
  /-- Memory is a map from the addresses MemMap admits (R34): nothing is listed elsewhere. -/
  memAdmitted : ∀ c ∈ s.mem, s.memMap.admits (BitVec.ofNat 32 c.1) = true

/-- Launch parameters as R190, R192 and R196 require them. -/
structure Launch.Wf (p : Launch) : Prop where
  /-- RESET_PC is even (R190). -/
  resetEven : Even32 p.resetPc
  /-- END_PC, where there is one, is even (R196). -/
  endEven : ∀ e, p.endPc = some e → Even32 e
  /-- Mem0 is in canonical form. -/
  memCanonical : p.mem0.wf = true
  /-- Mem0 holds bytes at addresses MemMap admits only (R192). -/
  memAdmitted : ∀ c ∈ p.mem0, p.memMap.admits (BitVec.ofNat 32 c.1) = true

/-! ## Runs -/

/-- `k` steps from `s` all go on, and lead to `t`: no fault and no refusal occurred (R166). -/
def RunsTo (k : Nat) (s t : State) : Prop := Host.Core.run Sys2Proof.core k s = .next t

/-- The run from `s` ends successfully after `k` steps in the final state `t`: its pc is END_PC there and was not before
(R196, R197). -/
def EndsIn : Nat → State → State → Prop
  | 0, s, t => s.endPc = some s.pc ∧ t = s
  | k + 1, s, t => s.endPc ≠ some s.pc ∧ ∃ u, step s = .next u ∧ EndsIn k u t

end Sys2Proof.Machine
end

