-- ==== Sys2Proof/Certificates/Slice0/Obligations.lean ====
section
/-! DEFINITION. The statements for the provers. Each docstring names the rule of spec/ it formalises. -/

open Sys2Proof Sys2Proof.Machine

/-- O1. R190, R191, R192, with MemMap (R48) and END_PC (R196): reset for every choice of all the parameters of R6. The
spec marks this as its own decision (D3, D13, D16 of 92_eei_decisions.md). That x0 reads 0 is DEDUCED (log entry 12):
R21 marks its read half as its own derivation. That MemMap and END_PC are fields of the state, and memory a list over
an unlisted 0, is THE MODEL'S CHOICE (log entries 3 and 6). -/
def Obligations.LaunchStateHoldsItsParameters : Prop :=
  ∀ p : Launch, p.Wf →
    (State.launch p).pc = p.resetPc ∧ Even32 (State.launch p).pc ∧ (State.launch p).reg 0 = 0 ∧
    (∀ (n : Nat) (h : n < 31), (State.launch p).reg ⟨n + 1, by omega⟩ = p.x0[n]) ∧
    (∀ a : Word, (State.launch p).mem.byte a = p.mem0.byte a) ∧
    (State.launch p).memMap = p.memMap ∧ (State.launch p).endPc = p.endPc

/-- O2. The invariant of `StepKeepsInvariant` holds at the start. `State.reset` is the model's choice of launch (log
entries 1 to 5). The spec marks this as its own decision (D13, D16 of 92_eei_decisions.md). The canonical form of
memory and END_PC as a field are the model's choice too (log entries 3 and 6). -/
def Obligations.LaunchMeetsInvariant : Prop :=
  (∀ p : Launch, p.Wf → (State.launch p).Inv) ∧ State.reset.Inv

/-- O3. THE MODEL'S CHOICE (log entries 1 to 5): the spec leaves all of these as parameters. -/
def Obligations.ResetIsTheNamedLaunch : Prop :=
  State.reset.pc = 0x100#32 ∧ State.reset.endPc = none ∧
  (∀ (n : Nat) (h : n < 31), State.reset.reg ⟨n + 1, by omega⟩ = 0xA5A50100#32 + BitVec.ofNat 32 (256 * n)) ∧
  ∀ a : Word, State.reset.mem.byte a = 0#8 ∧ State.reset.memMap.readable a = true ∧
    State.reset.memMap.writable a = true ∧ State.reset.memMap.executable a = false

/-- O4. R6, R48, R192: the plain data that stand for MemMap and Mem0 shut no launch out. The spec marks this as its
own decision (D3, D13, D16 of 92_eei_decisions.md). That a map is a list of regions and memory a list of bytes over an
unlisted 0 is THE MODEL'S CHOICE (log entries 3 and 6). -/
def Obligations.EveryLaunchIsRepresentable : Prop :=
  ∀ (rd wr ex : Word → Bool) (mem0 : Word → Byte) (x0 : Vector Word 31) (resetPc : Word) (endPc : Option Word),
    Even32 resetPc → (∀ e, endPc = some e → Even32 e) →
    ∃ p : Launch, p.Wf ∧ p.resetPc = resetPc ∧ p.endPc = endPc ∧ p.x0 = x0 ∧
      ∀ a : Word, p.memMap.readable a = rd a ∧ p.memMap.writable a = wr a ∧ p.memMap.executable a = ex a ∧
        (p.memMap.admits a = true → p.mem0.byte a = mem0 a)

/-- O5. Words of 95_test_vectors.md, one family after the other; R79 for the registers. That 0x0001 is reported as
C.NOP, where R121 also allows C.ADDI, is THE MODEL'S CHOICE (log entry 28). -/
def Obligations.DecodeSpecWords : Prop :=
  (∀ f : CReg, f.reg.val = 8 + f.val) ∧
  decode 0x0028#16 = .addi4spn 2 8#10 ∧ decode 0x0000#16 = .reservedAddi4spnImm0 0 ∧
  decode 0x41A8#16 = .lw 2 3 64#7 ∧ decode 0xCAD0#16 = .sw 4 5 20#7 ∧
  decode 0x157D#16 = .addi 10 (-1#6) ∧ decode 0x0001#16 = .nop ∧ decode 0x3001#16 = .jal (-2048#12) ∧
  decode 0x5F81#16 = .li 31 (-32#6) ∧ decode 0x401D#16 = .hintLiRd0 7#6 ∧
  decode 0x71C1#16 = .lui 3 (-16#6) ∧ decode 0x6005#16 = .reservedLuiRd0 1#6 ∧
  decode 0x7139#16 = .addi16sp (-64#10) ∧ decode 0x6101#16 = .reservedAddi16spImm0 ∧
  decode 0x8111#16 = .srli 2 4#5 ∧ decode 0x8501#16 = .hintSraiShamt0 2 ∧
  decode 0x9111#16 = .reservedShiftShamt5 .srli 2 4#5 ∧ decode 0x893D#16 = .andi 2 15#6 ∧
  decode 0x8D89#16 = .sub 3 2 ∧ decode 0x8D2D#16 = .xor 2 3 ∧
  decode 0x8082#16 = .undocQ2 0x2020#14 ∧ decode 0x0013#16 = .undocOp11 4#14

/-- O6. R88 is the inverse of R80 to R86: no bit of an encoding is dropped, whichever of the 33 rows the instruction
is of. The spec marks this as its own inference ([derived] of R88). -/
def Obligations.DecodeOfEncode : Prop :=
  ∀ i : Instr, i.wf = true → decode (encode i) = i

/-- O7. Each word has one meaning (R89), and the word R161 and R168 record is the fetched one. The spec marks this as
its own inference ([derived] of R88). -/
def Obligations.EncodeOfDecode : Prop :=
  ∀ w : InstWord, encode (decode w) = w

/-- O8. R15, R89: a word that fails an instruction's constraint is not that instruction. -/
def Obligations.DecodeYieldsWellFormed : Prop :=
  ∀ w : InstWord, (decode w).wf = true

/-- O9. The paragraph after the census of R97: the 33 rows partition the words, and `decode` follows them. -/
def Obligations.OpcodeTableIsPartition : Prop :=
  ∀ (w : InstWord) (k : Nat) (r : OpcodeRow), opcodeTable[k]? = some r → (r.admits w = true ↔ (decode w).row = k)

/-- O10. R43, R70. The spec marks this as its own decision (D1 of 92_eei_decisions.md). That fewer than two bytes are
rejected as `truncated` is THE MODEL'S CHOICE (log entry 32). -/
def Obligations.BytesDecodeLittleEndian : Prop :=
  (∀ (w : InstWord) (rest : List Byte), decodeBytes (wordBytes w ++ rest) = .ok (decode w, rest)) ∧
  decodeBytes [] = .error .truncated ∧ ∀ b : Byte, decodeBytes [b] = .error .truncated

/-- O11. R25 (2) to (4). Nothing stands around `exec`: each meaning advances the pc itself (R26). The spec marks this
as its own decision (D1, D9 of 92_eei_decisions.md). For an odd pc, which no run reaches, this is THE MODEL'S CHOICE
(log entry 11). -/
def Obligations.StepRunsDecodedInstruction : Prop :=
  ∀ (s : State) (i : Instr), s.endPc ≠ some s.pc → s.memMap.executable s.pc = true →
    s.memMap.executable (s.pc + 1#32) = true → decode (s.mem.byte (s.pc + 1#32) ++ s.mem.byte s.pc) = i →
    step s = exec i s

/-- O12. R50, and the step it belongs to (R167). The spec marks this as its own decision (D1, D3 of
92_eei_decisions.md). For an odd pc, which no run reaches, this is THE MODEL'S CHOICE (log entry 11). -/
def Obligations.FetchReadsTwoExecutableBytes : Prop :=
  (∀ s : State, s.memMap.executable s.pc = true ∧ s.memMap.executable (s.pc + 1#32) = true →
    fetch s = .next (s.mem.byte (s.pc + 1#32) ++ s.mem.byte s.pc)) ∧
  (∀ s : State, ¬ (s.memMap.executable s.pc = true ∧ s.memMap.executable (s.pc + 1#32) = true) →
    fetch s = .fault (.instructionAccessFault s.pc)) ∧
  ∀ s : State, s.endPc ≠ some s.pc → ¬ (s.memMap.executable s.pc = true ∧ s.memMap.executable (s.pc + 1#32) = true) →
    step s = .fault (.instructionAccessFault s.pc)

/-- O13. R196: no instruction is fetched at END_PC. THE MODEL'S CHOICE (log entry 7) is to answer the unchanged state.
The spec marks this as its own decision (D16 of 92_eei_decisions.md). -/
def Obligations.EndedRunStaysInItsFinalState : Prop :=
  ∀ (k : Nat) (s t : State), s.endPc = some s.pc → (RunsTo k s t ↔ t = s)

/-- O14. THE MODEL'S CHOICE (log entry 8): `withFetchWord` stands for the placement by the host that R195 leaves
outside the hardware. That it makes the two bytes at pc executable by a region of their own, and drops an END_PC at
pc, is that entry's, not R195's. -/
def Obligations.PlacedWordIsRunNext : Prop :=
  ∀ (s : State) (w : InstWord), s.mem.wf = true →
    step (s.withFetchWord 16 w.toNat) = exec (decode w) (s.withFetchWord 16 w.toNat) ∧
    SameRegs s (s.withFetchWord 16 w.toNat) ∧ (s.withFetchWord 16 w.toNat).pc = s.pc ∧
    ∀ a : Word, a ≠ s.pc → a ≠ s.pc + 1#32 → (s.withFetchWord 16 w.toNat).mem.byte a = s.mem.byte a

/-- O15. R110, with the scatter of R80. -/
def Obligations.Addi4spnRule : Prop :=
  (∀ w : InstWord, w.extractLsb' 0 2 = 0b00#2 → w.extractLsb' 13 3 = 0b000#3 → w.extractLsb' 5 8 ≠ 0#8 →
    ∃ rd v, decode w = .addi4spn rd v ∧ rd.val = (w.extractLsb' 2 3).toNat ∧ v.extractLsb' 6 4 = w.extractLsb' 7 4 ∧
      v.extractLsb' 4 2 = w.extractLsb' 11 2 ∧ v.extractLsb' 3 1 = w.extractLsb' 5 1 ∧
      v.extractLsb' 2 1 = w.extractLsb' 6 1 ∧ v.extractLsb' 0 2 = 0b00#2) ∧
  ∀ (rd : CReg) (v : BitVec 10) (s : State),
    ∃ t, exec (.addi4spn rd v) s = .next t ∧ RegisterEffect rd.reg (s.reg 2 + zext32 v) s t

/-- O16. R112, with the scatter of R81. The two hypotheses are exactly the checks of R46 and R47. -/
def Obligations.LwRule : Prop :=
  (∀ w : InstWord, w.extractLsb' 0 2 = 0b00#2 → w.extractLsb' 13 3 = 0b010#3 →
    ∃ rd rs1 u, decode w = .lw rd rs1 u ∧ rd.val = (w.extractLsb' 2 3).toNat ∧ rs1.val = (w.extractLsb' 7 3).toNat ∧
      u.extractLsb' 6 1 = w.extractLsb' 5 1 ∧ u.extractLsb' 3 3 = w.extractLsb' 10 3 ∧
      u.extractLsb' 2 1 = w.extractLsb' 6 1 ∧ u.extractLsb' 0 2 = 0b00#2) ∧
  (∀ (rd rs1 : CReg) (u : BitVec 7) (s : State) (a : Word), a = s.reg rs1.reg + zext32 u → Aligned a →
    AllFour s.memMap.readable a →
    ∃ t, exec (.lw rd rs1 u) s = .next t ∧
      RegisterEffect rd.reg (s.mem.byte (a + 3#32) ++ s.mem.byte (a + 2#32) ++ s.mem.byte (a + 1#32) ++ s.mem.byte a) s t) ∧
  ∀ (rd rs1 : CReg) (u : BitVec 7) (s t : State), exec (.lw rd rs1 u) s = .next t →
    Aligned (s.reg rs1.reg + zext32 u) ∧ AllFour s.memMap.readable (s.reg rs1.reg + zext32 u)

/-- O17. R113, with the scatter of R81. The hypotheses on the access are exactly the checks of R46, R47 and R53; that
memory is canonical is part of the invariant every step keeps (`StepKeepsInvariant`). -/
def Obligations.SwRule : Prop :=
  (∀ w : InstWord, w.extractLsb' 0 2 = 0b00#2 → w.extractLsb' 13 3 = 0b110#3 →
    ∃ rs2 rs1 u, decode w = .sw rs2 rs1 u ∧ rs2.val = (w.extractLsb' 2 3).toNat ∧ rs1.val = (w.extractLsb' 7 3).toNat ∧
      u.extractLsb' 6 1 = w.extractLsb' 5 1 ∧ u.extractLsb' 3 3 = w.extractLsb' 10 3 ∧
      u.extractLsb' 2 1 = w.extractLsb' 6 1 ∧ u.extractLsb' 0 2 = 0b00#2) ∧
  (∀ (rs2 rs1 : CReg) (u : BitVec 7) (s : State) (a v : Word), a = s.reg rs1.reg + zext32 u → v = s.reg rs2.reg →
    s.mem.wf = true → Aligned a → AllFour s.memMap.writable a → ¬ SomeOfFour s.memMap.executable a →
    ∃ t, exec (.sw rs2 rs1 u) s = .next t ∧ t.pc = s.pc + 2#32 ∧ SameRegs s t ∧ SameLaunch s t ∧
      t.mem.byte a = v.extractLsb' 0 8 ∧ t.mem.byte (a + 1#32) = v.extractLsb' 8 8 ∧
      t.mem.byte (a + 2#32) = v.extractLsb' 16 8 ∧ t.mem.byte (a + 3#32) = v.extractLsb' 24 8 ∧
      ∀ b : Word, b ≠ a → b ≠ a + 1#32 → b ≠ a + 2#32 → b ≠ a + 3#32 → t.mem.byte b = s.mem.byte b) ∧
  ∀ (rs2 rs1 : CReg) (u : BitVec 7) (s t : State), exec (.sw rs2 rs1 u) s = .next t →
    Aligned (s.reg rs1.reg + zext32 u) ∧ AllFour s.memMap.writable (s.reg rs1.reg + zext32 u) ∧
      ¬ SomeOfFour s.memMap.executable (s.reg rs1.reg + zext32 u)

/-- O18. R120; `RegisterEffect` with x0 writes nothing (R21). -/
def Obligations.AddiRule : Prop :=
  (∀ w : InstWord, w.extractLsb' 0 2 = 0b01#2 → w.extractLsb' 13 3 = 0b000#3 → w ≠ 0x0001#16 →
    ∃ rd v, decode w = .addi rd v ∧ rd.val = (w.extractLsb' 7 5).toNat ∧
      v.extractLsb' 5 1 = w.extractLsb' 12 1 ∧ v.extractLsb' 0 5 = w.extractLsb' 2 5) ∧
  (∀ (rd : Reg) (v : BitVec 6) (s : State),
    ∃ t, exec (.addi rd v) s = .next t ∧ RegisterEffect rd (s.reg rd + sext32 v) s t) ∧
  ∀ (v : BitVec 6) (s : State), ∃ t, exec (.addi 0 v) s = .next t ∧ PcEffect s t

/-- O19. R121. The spec marks this as its own inference ([derived] of R121). That 0x0001 is reported as C.NOP, where
R121 also allows C.ADDI, is THE MODEL'S CHOICE (log entry 28), by C.NOP's own row of the opcode table (R89). -/
def Obligations.NopRule : Prop :=
  (∀ w : InstWord, decode w = .nop ↔ w = 0x0001#16) ∧
  ∀ s : State, ∃ t, exec .nop s = .next t ∧ PcEffect s t

/-- O20. R122, with the scatter of R83. There is no delay slot: the next state's pc is the target. -/
def Obligations.JalRule : Prop :=
  (∀ w : InstWord, w.extractLsb' 0 2 = 0b01#2 → w.extractLsb' 13 3 = 0b001#3 →
    ∃ v, decode w = .jal v ∧ v.extractLsb' 11 1 = w.extractLsb' 12 1 ∧ v.extractLsb' 10 1 = w.extractLsb' 8 1 ∧
      v.extractLsb' 8 2 = w.extractLsb' 9 2 ∧ v.extractLsb' 7 1 = w.extractLsb' 6 1 ∧
      v.extractLsb' 6 1 = w.extractLsb' 7 1 ∧ v.extractLsb' 5 1 = w.extractLsb' 2 1 ∧
      v.extractLsb' 4 1 = w.extractLsb' 11 1 ∧ v.extractLsb' 1 3 = w.extractLsb' 3 3 ∧ v.extractLsb' 0 1 = 0b0#1) ∧
  ∀ (v : BitVec 12) (s : State),
    ∃ t, exec (.jal v) s = .next t ∧ WritesOnly 1 (s.pc + 2#32) s t ∧ t.pc = s.pc + sext32 v ∧ SameMemory s t ∧ SameLaunch s t

/-- O21. R123. -/
def Obligations.LiRule : Prop :=
  (∀ w : InstWord, w.extractLsb' 0 2 = 0b01#2 → w.extractLsb' 13 3 = 0b010#3 → w.extractLsb' 7 5 ≠ 0#5 →
    ∃ rd v, decode w = .li rd v ∧ rd.val = (w.extractLsb' 7 5).toNat ∧
      v.extractLsb' 5 1 = w.extractLsb' 12 1 ∧ v.extractLsb' 0 5 = w.extractLsb' 2 5) ∧
  ∀ (rd : Reg) (v : BitVec 6) (s : State),
    ∃ t, exec (.li rd v) s = .next t ∧ RegisterEffect rd (sext32 v) s t

/-- O22. R125, bit by bit; the immediate may be 0. -/
def Obligations.LuiRule : Prop :=
  (∀ w : InstWord, w.extractLsb' 0 2 = 0b01#2 → w.extractLsb' 13 3 = 0b011#3 → w.extractLsb' 7 5 ≠ 0#5 →
    w.extractLsb' 7 5 ≠ 2#5 →
    ∃ rd v, decode w = .lui rd v ∧ rd.val = (w.extractLsb' 7 5).toNat ∧
      v.extractLsb' 5 1 = w.extractLsb' 12 1 ∧ v.extractLsb' 0 5 = w.extractLsb' 2 5) ∧
  ∀ (rd : Reg) (v : BitVec 6) (s : State),
    ∃ t x, exec (.lui rd v) s = .next t ∧ RegisterEffect rd x s t ∧ x.extractLsb' 12 6 = v ∧ x.extractLsb' 0 12 = 0#12 ∧
      ∀ j, 18 ≤ j → j < 32 → x.getLsbD j = v.getLsbD 5

/-- O23. R127, with the scatter of R85. -/
def Obligations.Addi16spRule : Prop :=
  (∀ w : InstWord, w.extractLsb' 0 2 = 0b01#2 → w.extractLsb' 13 3 = 0b011#3 → w.extractLsb' 7 5 = 2#5 →
    w ≠ 0x6101#16 →
    ∃ v, decode w = .addi16sp v ∧ v.extractLsb' 9 1 = w.extractLsb' 12 1 ∧ v.extractLsb' 7 2 = w.extractLsb' 3 2 ∧
      v.extractLsb' 6 1 = w.extractLsb' 5 1 ∧ v.extractLsb' 5 1 = w.extractLsb' 2 1 ∧
      v.extractLsb' 4 1 = w.extractLsb' 6 1 ∧ v.extractLsb' 0 4 = 0#4) ∧
  ∀ (v : BitVec 10) (s : State),
    ∃ t, exec (.addi16sp v) s = .next t ∧ RegisterEffect 2 (s.reg 2 + sext32 v) s t

/-- O24. R140, with the shift of R11 bit by bit. -/
def Obligations.SrliRule : Prop :=
  (∀ w : InstWord, w.extractLsb' 0 2 = 0b01#2 → w.extractLsb' 13 3 = 0b100#3 → w.extractLsb' 12 1 = 0b0#1 →
    w.extractLsb' 10 2 = 0b00#2 → w.extractLsb' 2 5 ≠ 0#5 →
    ∃ rd, decode w = .srli rd (w.extractLsb' 2 5) ∧ rd.val = (w.extractLsb' 7 3).toNat) ∧
  ∀ (rd : CReg) (sh : BitVec 5) (s : State),
    ∃ t x, exec (.srli rd sh) s = .next t ∧ RegisterEffect rd.reg x s t ∧
      ∀ j < 32, x.getLsbD j = if j + sh.toNat ≤ 31 then (s.reg rd.reg).getLsbD (j + sh.toNat) else false

/-- O25. R142, with the shift of R11 bit by bit. -/
def Obligations.SraiRule : Prop :=
  (∀ w : InstWord, w.extractLsb' 0 2 = 0b01#2 → w.extractLsb' 13 3 = 0b100#3 → w.extractLsb' 12 1 = 0b0#1 →
    w.extractLsb' 10 2 = 0b01#2 → w.extractLsb' 2 5 ≠ 0#5 →
    ∃ rd, decode w = .srai rd (w.extractLsb' 2 5) ∧ rd.val = (w.extractLsb' 7 3).toNat) ∧
  ∀ (rd : CReg) (sh : BitVec 5) (s : State),
    ∃ t x, exec (.srai rd sh) s = .next t ∧ RegisterEffect rd.reg x s t ∧
      ∀ j < 32, x.getLsbD j = if j + sh.toNat ≤ 31 then (s.reg rd.reg).getLsbD (j + sh.toNat) else (s.reg rd.reg).getLsbD 31

/-- O26. R145. -/
def Obligations.AndiRule : Prop :=
  (∀ w : InstWord, w.extractLsb' 0 2 = 0b01#2 → w.extractLsb' 13 3 = 0b100#3 → w.extractLsb' 10 2 = 0b10#2 →
    ∃ rd v, decode w = .andi rd v ∧ rd.val = (w.extractLsb' 7 3).toNat ∧
      v.extractLsb' 5 1 = w.extractLsb' 12 1 ∧ v.extractLsb' 0 5 = w.extractLsb' 2 5) ∧
  ∀ (rd : CReg) (v : BitVec 6) (s : State),
    ∃ t, exec (.andi rd v) s = .next t ∧ RegisterEffect rd.reg (s.reg rd.reg &&& sext32 v) s t

/-- O27. R146; both operands are those of the state before the write. -/
def Obligations.SubRule : Prop :=
  (∀ w : InstWord, w.extractLsb' 0 2 = 0b01#2 → w.extractLsb' 10 6 = 0b100011#6 → w.extractLsb' 5 2 = 0b00#2 →
    ∃ rd rs2, decode w = .sub rd rs2 ∧ rd.val = (w.extractLsb' 7 3).toNat ∧ rs2.val = (w.extractLsb' 2 3).toNat) ∧
  ∀ (rd rs2 : CReg) (s : State),
    ∃ t, exec (.sub rd rs2) s = .next t ∧ RegisterEffect rd.reg (s.reg rd.reg - s.reg rs2.reg) s t

/-- O28. R147; both operands are those of the state before the write. -/
def Obligations.XorRule : Prop :=
  (∀ w : InstWord, w.extractLsb' 0 2 = 0b01#2 → w.extractLsb' 10 6 = 0b100011#6 → w.extractLsb' 5 2 = 0b01#2 →
    ∃ rd rs2, decode w = .xor rd rs2 ∧ rd.val = (w.extractLsb' 7 3).toNat ∧ rs2.val = (w.extractLsb' 2 3).toNat) ∧
  ∀ (rd rs2 : CReg) (s : State),
    ∃ t, exec (.xor rd rs2) s = .next t ∧ RegisterEffect rd.reg (s.reg rd.reg ^^^ s.reg rs2.reg) s t

/-- O29. R46, R162, R163. A fault answers no next state, so no byte moves. The spec marks this as its own decision (D2
of 92_eei_decisions.md). -/
def Obligations.MisalignedAccessFaults : Prop :=
  (∀ (rd rs1 : CReg) (u : BitVec 7) (s : State) (a : Word), a = s.reg rs1.reg + zext32 u → ¬ Aligned a →
    exec (.lw rd rs1 u) s = .fault (.loadAddressMisaligned a s.pc)) ∧
  (∀ (rs2 rs1 : CReg) (u : BitVec 7) (s : State) (a : Word), a = s.reg rs1.reg + zext32 u → ¬ Aligned a →
    exec (.sw rs2 rs1 u) s = .fault (.storeAddressMisaligned a s.pc)) ∧
  ∀ a : Word, Aligned a → a.toNat + 3 < 4294967296

/-- O30. R164, R165 (and R47 after the alignment check). The spec marks this as its own decision (D3 of
92_eei_decisions.md). -/
def Obligations.UnmappedAccessFaults : Prop :=
  (∀ (rd rs1 : CReg) (u : BitVec 7) (s : State) (a : Word), a = s.reg rs1.reg + zext32 u → Aligned a →
    ¬ AllFour s.memMap.readable a → exec (.lw rd rs1 u) s = .fault (.loadAccessFault a s.pc)) ∧
  ∀ (rs2 rs1 : CReg) (u : BitVec 7) (s : State) (a : Word), a = s.reg rs1.reg + zext32 u → Aligned a →
    ¬ AllFour s.memMap.writable a → exec (.sw rs2 rs1 u) s = .fault (.storeAccessFault a s.pc)

/-- O31. R53, R168; that the text stays fixed over a run is `ProgramTextStaysFixed`. The spec marks this as its own
decision (D15 of 92_eei_decisions.md). -/
def Obligations.StoreToCodeIsRefused : Prop :=
  ∀ (rs2 rs1 : CReg) (u : BitVec 7) (s : State) (a : Word), a = s.reg rs1.reg + zext32 u → Aligned a →
    AllFour s.memMap.writable a → SomeOfFour s.memMap.executable a → exec (.sw rs2 rs1 u) s = .refused (.storeToCode a)

/-- O32. R93 (a), (b), (c), on the fetched word. The spec marks this as its own decision (D5 of 92_eei_decisions.md).
-/
def Obligations.HintWordsChangeOnlyPc : Prop :=
  ∀ (s : State) (w : InstWord), Fetches s w →
    (w &&& 0xEF83#16 = 0x4001#16 ∨ w &&& 0xFC7F#16 = 0x8001#16 ∨ w &&& 0xFC7F#16 = 0x8401#16) →
    ∃ t, step s = .next t ∧ PcEffect s t

/-- O33. R124, R141, R143. The spec marks this as its own decision (D5 of 92_eei_decisions.md). -/
def Obligations.HintsComplete : Prop :=
  (∀ w : InstWord, w.extractLsb' 0 2 = 0b01#2 → w.extractLsb' 13 3 = 0b010#3 → w.extractLsb' 7 5 = 0#5 →
    ∃ v, decode w = .hintLiRd0 v) ∧
  (∀ w : InstWord, w.extractLsb' 0 2 = 0b01#2 → w.extractLsb' 13 3 = 0b100#3 → w.extractLsb' 12 1 = 0b0#1 →
    w.extractLsb' 2 5 = 0#5 →
    (w.extractLsb' 10 2 = 0b00#2 → ∃ rd, decode w = .hintSrliShamt0 rd) ∧
    (w.extractLsb' 10 2 = 0b01#2 → ∃ rd, decode w = .hintSraiShamt0 rd)) ∧
  (∀ (v : BitVec 6) (s : State), ∃ t, exec (.hintLiRd0 v) s = .next t ∧ PcEffect s t) ∧
  (∀ (rd : CReg) (s : State), ∃ t, exec (.hintSrliShamt0 rd) s = .next t ∧ PcEffect s t) ∧
  ∀ (rd : CReg) (s : State), ∃ t, exec (.hintSraiShamt0 rd) s = .next t ∧ PcEffect s t

/-- O34. R92 (a) to (d), R161, on the fetched word. The spec marks this as its own decision (D4, D6 of
92_eei_decisions.md). -/
def Obligations.ReservedWordsRaiseIllegalInstruction : Prop :=
  ∀ (s : State) (w : InstWord), Fetches s w →
    (w &&& 0xFFE3#16 = 0x0000#16 ∨ w &&& 0xEF83#16 = 0x6001#16 ∨ w = 0x6101#16 ∨ w &&& 0xF803#16 = 0x9001#16) →
    step s = .fault (.illegalInstruction w s.pc)

/-- O35. R111, R126, R128, R144. The spec marks this as its own decision (D4, D6 of 92_eei_decisions.md). -/
def Obligations.ReservedInstructionsStop : Prop :=
  (∀ (rd : CReg) (s : State), decode (BitVec.ofNat 16 (4 * rd.val)) = .reservedAddi4spnImm0 rd ∧
    exec (.reservedAddi4spnImm0 rd) s = .fault (.illegalInstruction (BitVec.ofNat 16 (4 * rd.val)) s.pc)) ∧
  (∀ (v : BitVec 6) (s : State),
    decode (0b011#3 ++ v.extractLsb' 5 1 ++ 0#5 ++ v.extractLsb' 0 5 ++ 0b01#2) = .reservedLuiRd0 v ∧
    exec (.reservedLuiRd0 v) s =
      .fault (.illegalInstruction (0b011#3 ++ v.extractLsb' 5 1 ++ 0#5 ++ v.extractLsb' 0 5 ++ 0b01#2) s.pc)) ∧
  (∀ s : State, decode 0x6101#16 = .reservedAddi16spImm0 ∧
    exec .reservedAddi16spImm0 s = .fault (.illegalInstruction 0x6101#16 s.pc)) ∧
  ∀ (rd : CReg) (sh : BitVec 5) (s : State),
    decode (0b100100#6 ++ BitVec.ofNat 3 rd.val ++ sh ++ 0b01#2) = .reservedShiftShamt5 .srli rd sh ∧
    decode (0b100101#6 ++ BitVec.ofNat 3 rd.val ++ sh ++ 0b01#2) = .reservedShiftShamt5 .srai rd sh ∧
    exec (.reservedShiftShamt5 .srli rd sh) s =
      .fault (.illegalInstruction (0b100100#6 ++ BitVec.ofNat 3 rd.val ++ sh ++ 0b01#2) s.pc) ∧
    exec (.reservedShiftShamt5 .srai rd sh) s =
      .fault (.illegalInstruction (0b100101#6 ++ BitVec.ofNat 3 rd.val ++ sh ++ 0b01#2) s.pc)

/-- O36. R96, on the fetched word. The spec marks this as its own decision (D7 of 92_eei_decisions.md). -/
def Obligations.UndocumentedWordsAreRefused : Prop :=
  ∀ (s : State) (w : InstWord), Fetches s w →
    (w.extractLsb' 0 2 = 0b10#2 ∨ w.extractLsb' 0 2 = 0b11#2 ∨
      (w.extractLsb' 0 2 = 0b00#2 ∧ w.extractLsb' 13 3 ∈ [0b001#3, 0b011#3, 0b100#3, 0b101#3, 0b111#3]) ∨
      (w.extractLsb' 0 2 = 0b01#2 ∧ w.extractLsb' 13 3 ∈ [0b101#3, 0b110#3, 0b111#3]) ∨
      (w.extractLsb' 0 2 = 0b01#2 ∧ w.extractLsb' 13 3 = 0b100#3 ∧ w.extractLsb' 10 2 = 0b11#2 ∧
        (w.extractLsb' 12 1 = 0b1#1 ∨ w.extractLsb' 5 2 ∈ [0b10#2, 0b11#2]))) →
    step s = .refused (.undocumented w)

/-- O37. R96, R168, row by row. The spec marks this as its own decision (D7 of 92_eei_decisions.md). -/
def Obligations.UndocumentedInstructionsStop : Prop :=
  (∀ (b : BitVec 11) (s : State), exec (.undocQ0F001 b) s = .refused (.undocumented (0b001#3 ++ b ++ 0b00#2))) ∧
  (∀ (b : BitVec 11) (s : State), exec (.undocQ0F011 b) s = .refused (.undocumented (0b011#3 ++ b ++ 0b00#2))) ∧
  (∀ (b : BitVec 11) (s : State), exec (.undocQ0F100 b) s = .refused (.undocumented (0b100#3 ++ b ++ 0b00#2))) ∧
  (∀ (b : BitVec 11) (s : State), exec (.undocQ0F101 b) s = .refused (.undocumented (0b101#3 ++ b ++ 0b00#2))) ∧
  (∀ (b : BitVec 11) (s : State), exec (.undocQ0F111 b) s = .refused (.undocumented (0b111#3 ++ b ++ 0b00#2))) ∧
  (∀ (b : BitVec 11) (s : State), exec (.undocQ1F101 b) s = .refused (.undocumented (0b101#3 ++ b ++ 0b01#2))) ∧
  (∀ (b : BitVec 11) (s : State), exec (.undocQ1F110 b) s = .refused (.undocumented (0b110#3 ++ b ++ 0b01#2))) ∧
  (∀ (b : BitVec 11) (s : State), exec (.undocQ1F111 b) s = .refused (.undocumented (0b111#3 ++ b ++ 0b01#2))) ∧
  (∀ (hi : BitVec 3) (lo : BitVec 4) (s : State),
    exec (.undocQ1Ca1x hi lo) s = .refused (.undocumented (0b100011#6 ++ hi ++ 0b1#1 ++ lo ++ 0b01#2))) ∧
  (∀ (b : BitVec 8) (s : State), exec (.undocQ1F100111 b) s = .refused (.undocumented (0b100111#6 ++ b ++ 0b01#2))) ∧
  (∀ (b : BitVec 14) (s : State), exec (.undocQ2 b) s = .refused (.undocumented (b ++ 0b10#2))) ∧
  ∀ (b : BitVec 14) (s : State), exec (.undocOp11 b) s = .refused (.undocumented (b ++ 0b11#2))

/-- O38. R171, as an inversion: the causes exclude each other in the order of that rule. The spec marks this as its
own decision (D2 to D7, D15, D21 of 92_eei_decisions.md). -/
def Obligations.StopsAreThoseOfTheSpec : Prop :=
  (∀ (s : State) (f : Fault), step s = .fault f →
    (¬ (s.memMap.executable s.pc = true ∧ s.memMap.executable (s.pc + 1#32) = true) ∧ f = .instructionAccessFault s.pc) ∨
    ∃ w, Fetches s w ∧
      (((decode w).rowClass = .reserved ∧ f = .illegalInstruction w s.pc) ∨
       (∃ rd rs1 u, decode w = .lw rd rs1 u ∧
          ((¬ Aligned (s.reg rs1.reg + zext32 u) ∧ f = .loadAddressMisaligned (s.reg rs1.reg + zext32 u) s.pc) ∨
           (Aligned (s.reg rs1.reg + zext32 u) ∧ ¬ AllFour s.memMap.readable (s.reg rs1.reg + zext32 u) ∧
              f = .loadAccessFault (s.reg rs1.reg + zext32 u) s.pc))) ∨
       (∃ rs2 rs1 u, decode w = .sw rs2 rs1 u ∧
          ((¬ Aligned (s.reg rs1.reg + zext32 u) ∧ f = .storeAddressMisaligned (s.reg rs1.reg + zext32 u) s.pc) ∨
           (Aligned (s.reg rs1.reg + zext32 u) ∧ ¬ AllFour s.memMap.writable (s.reg rs1.reg + zext32 u) ∧
              f = .storeAccessFault (s.reg rs1.reg + zext32 u) s.pc))))) ∧
  ∀ (s : State) (r : Refusal), step s = .refused r →
    ∃ w, Fetches s w ∧
      (((decode w).rowClass = .undocumented ∧ r = .undocumented w) ∨
       (∃ rs2 rs1 u, decode w = .sw rs2 rs1 u ∧ Aligned (s.reg rs1.reg + zext32 u) ∧
          AllFour s.memMap.writable (s.reg rs1.reg + zext32 u) ∧ SomeOfFour s.memMap.executable (s.reg rs1.reg + zext32 u) ∧
          r = .storeToCode (s.reg rs1.reg + zext32 u)))

/-- O39. The Exceptions items of 40 to 42: none of these raises a fault of its own. That the HINT rows complete is
R93, R124, R141 and R143, which the spec marks as its own decision (D5 of 92_eei_decisions.md; log entry 14). -/
def Obligations.RegisterInstructionsCannotStop : Prop :=
  ∀ (i : Instr) (s : State), i.rowClass = .instruction ∨ i.rowClass = .hint → (∀ rd rs1 u, i ≠ .lw rd rs1 u) →
    (∀ rs2 rs1 u, i ≠ .sw rs2 rs1 u) → ∃ t, exec i s = .next t

/-- O40. The frame of the registers, over all 33 rows; `Instr.dest` is the table after R23. That x0 reads 0 is DEDUCED
(log entry 12): R21 marks its read half as its own derivation. That a HINT writes no register is R93, not the table,
and the spec's own decision (D5 of 92_eei_decisions.md; log entry 14). -/
def Obligations.OnlyTheDestinationRegisterChanges : Prop :=
  ∀ (i : Instr) (s t : State), exec i s = .next t → t.reg 0 = 0#32 ∧ ∀ r : Reg, i.dest ≠ some r → t.reg r = s.reg r

/-- O41. R17: nothing but the hart's own C.SW writes memory. The spec marks this as its own decision (D14 of
92_eei_decisions.md). -/
def Obligations.OnlySwWritesMemory : Prop :=
  ∀ (i : Instr) (s t : State), (∀ rs2 rs1 u, i ≠ .sw rs2 rs1 u) → exec i s = .next t → SameMemory s t

/-- O42. R26, over all rows. The spec marks this as its own inference ([derived] of R26 and D9). -/
def Obligations.PcAdvancesByTwo : Prop :=
  ∀ (i : Instr) (s t : State), (∀ v, i ≠ .jal v) → exec i s = .next t → t.pc = s.pc + 2#32

/-- O43. R34: parameters of the step relation, fixed for a whole run (log entry 6). The spec marks this as its own
inference ([derived] of R34). -/
def Obligations.RunKeepsLaunchParameters : Prop :=
  ∀ (k : Nat) (s t : State), RunsTo k s t → SameLaunch s t

/-- O44. R27 and R34, from every state that meets the invariant, not only those a run reaches. The spec marks this as
its own inference ([derived] of R27 and R34). That memory is a list in a canonical form is THE MODEL'S CHOICE (log
entry 3), and so is that END_PC is a field (log entry 6). -/
def Obligations.StepKeepsInvariant : Prop :=
  ∀ s t : State, s.Inv → step s = .next t → t.Inv

/-- O45. R27. No other premise: the decoder gives C.JAL even offsets only. The spec marks this as its own inference
([derived] of R27). -/
def Obligations.PcStaysEven : Prop :=
  ∀ (k : Nat) (s t : State), Even32 s.pc → RunsTo k s t → Even32 t.pc

/-- O46. R53: within a run that has not been refused, every fetch of an address returns the bytes Mem0 put there. The
spec marks this as its own decision (D15 of 92_eei_decisions.md). -/
def Obligations.ProgramTextStaysFixed : Prop :=
  ∀ (k : Nat) (s t : State) (a : Word), s.Inv → RunsTo k s t → s.memMap.executable a = true →
    t.mem.byte a = s.mem.byte a ∧ t.memMap.executable a = true

/-- O47. R56 for the two adjacent steps; R198: no load-use or store-load delay. The spec marks this as its own
decision (D1, D14, D18, D25 of 92_eei_decisions.md). -/
def Obligations.LoadAfterStore : Prop :=
  ∀ (s t : State) (rs2 rs1 rd rs1' : CReg) (u u' : BitVec 7) (a b : Word), s.mem.wf = true →
    a = s.reg rs1.reg + zext32 u → exec (.sw rs2 rs1 u) s = .next t →
    b = t.reg rs1'.reg + zext32 u' → Aligned b → AllFour t.memMap.readable b →
    ∃ v, exec (.lw rd rs1' u') t = .next v ∧
      v.reg rd.reg = if b = a then s.reg rs2.reg
        else s.mem.byte (b + 3#32) ++ s.mem.byte (b + 2#32) ++ s.mem.byte (b + 1#32) ++ s.mem.byte b

/-- O48. The column 'registers it can read' of the table after R23: no other register is looked at. That a HINT reads
no register is R93, not the table, and the spec's own decision (D5 of 92_eei_decisions.md; log entry 14). -/
def Obligations.ResultDependsOnSourcesOnly : Prop :=
  ∀ (i : Instr) (s s' t : State), exec i s = .next t → s'.pc = s.pc → s'.mem = s.mem → s'.memMap = s.memMap →
    (∀ r ∈ i.sources, s'.reg r = s.reg r) →
    ∃ t', exec i s' = .next t' ∧ t'.pc = t.pc ∧ t'.mem = t.mem ∧ ∀ r : Reg, i.dest = some r → t'.reg r = t.reg r

/-- O49. R167, D20: the fault belongs to the step that fetches. The spec marks this as its own decision (D20 of
92_eei_decisions.md). -/
def Obligations.JalToUnfetchableTargetFaultsNext : Prop :=
  ∀ (v : BitVec 12) (s : State) (a : Word), a = s.pc + sext32 v → s.endPc ≠ some a →
    ¬ (s.memMap.executable a = true ∧ s.memMap.executable (a + 1#32) = true) →
    ∃ t, exec (.jal v) s = .next t ∧ t.reg 1 = s.pc + 2#32 ∧ t.pc = a ∧ step t = .fault (.instructionAccessFault a)

/-- O50. R197: the documented subset can express a run that does not terminate. The spec marks this as its own
inference ([derived] of R197). -/
def Obligations.JalToItselfRunsForever : Prop :=
  ∀ (k : Nat) (s : State), Fetches s 0x2001#16 →
    ∃ t, RunsTo (k + 1) s t ∧ t.pc = s.pc ∧ t.reg 1 = s.pc + 2#32 ∧ Fetches t 0x2001#16

/-- O51. The corner cases of C.SRAI, derived there from R142 and R11. `Int.fdiv` rounds toward minus infinity. -/
def Obligations.SraiRoundsTowardMinusInfinity : Prop :=
  ∀ (rd : CReg) (sh : BitVec 5) (s : State), ∃ t, exec (.srai rd sh) s = .next t ∧
    (t.reg rd.reg).toInt = Int.fdiv (s.reg rd.reg).toInt (2 ^ sh.toNat)

/-- O52. The corner cases of R147 and R127. -/
def Obligations.XorTwiceAndOppositeAdjustmentsRestore : Prop :=
  (∀ (rd rs2 : CReg) (s : State), rd ≠ rs2 →
    ∃ t u, exec (.xor rd rs2) s = .next t ∧ exec (.xor rd rs2) t = .next u ∧ SameRegs s u) ∧
  ∀ (v : BitVec 10) (s : State), v ≠ 0x200#10 →
    ∃ t u, exec (.addi16sp v) s = .next t ∧ exec (.addi16sp (-v)) t = .next u ∧ SameRegs s u
end

