-- ==== Sys2Proof/Laws/Memory.lean ====
section
/-! SUPPORT. Memory: reading after writing, that every write keeps the canonical form, and that a canonical memory is
determined by what it reads. -/

namespace Sys2Proof.Machine.Memory

/-! ## One address -/

theorem wfFrom_cons {lo k : Nat} {v : Byte} {m : Memory} :
    wfFrom lo ((k, v) :: m) = true ↔ lo ≤ k ∧ k < 4294967296 ∧ v ≠ Config.unlistedByte ∧ wfFrom (k + 1) m = true := by
  simp [wfFrom, and_assoc]

theorem wfFrom_mono {lo lo' : Nat} (h : lo' ≤ lo) {m : Memory} (hm : wfFrom lo m = true) : wfFrom lo' m = true := by
  cases m with
  | nil => rfl
  | cons c m =>
    obtain ⟨k, v⟩ := c
    obtain ⟨h1, h2⟩ := wfFrom_cons.1 hm
    exact wfFrom_cons.2 ⟨h.trans h1, h2⟩

/-- An address below every listed one reads as unlisted. -/
theorem readAt_below {lo a : Nat} {m : Memory} (hm : wfFrom lo m = true) (ha : a < lo) :
    readAt m a = Config.unlistedByte := by
  induction m generalizing lo with
  | nil => rfl
  | cons c m ih =>
    obtain ⟨k, v⟩ := c
    obtain ⟨h1, -, -, h4⟩ := wfFrom_cons.1 hm
    have hk : k ≠ a := by omega
    simp only [readAt, hk, if_false]
    exact ih h4 (by omega)

/-- Reading after writing, in a canonical memory. -/
theorem readAt_writeAt {lo : Nat} {m : Memory} (hm : wfFrom lo m = true) (a c : Nat) (b : Byte) :
    readAt (writeAt m a b) c = if c = a then b else readAt m c := by
  induction m generalizing lo with
  | nil =>
    rcases eq_or_ne c a with rfl | hc
    · by_cases hb : b = Config.unlistedByte <;> simp [writeAt, readAt, hb]
    · by_cases hb : b = Config.unlistedByte <;> simp [writeAt, readAt, hb, hc, hc.symm]
  | cons x m ih =>
    obtain ⟨k, v⟩ := x
    obtain ⟨-, -, -, h4⟩ := wfFrom_cons.1 hm
    have below : ∀ {c : Nat}, c < k + 1 → readAt m c = Config.unlistedByte := readAt_below h4
    rcases Nat.lt_trichotomy k a with hk | rfl | hk
    · rw [writeAt, if_pos hk, readAt, readAt, ih h4]
      rcases eq_or_ne k c with rfl | hkc
      · simp [hk.ne]
      · simp [hkc]
    · rcases eq_or_ne c k with rfl | hc
      · by_cases hb : b = Config.unlistedByte <;> simp [writeAt, readAt, hb, below]
      · by_cases hb : b = Config.unlistedByte <;> simp [writeAt, readAt, hb, hc, hc.symm]
    · rcases eq_or_ne c a with rfl | hc
      · by_cases hb : b = Config.unlistedByte <;>
          simp [writeAt, readAt, hb, hk.ne', Nat.not_lt.2 hk.le, below (Nat.lt_succ_of_lt hk)]
      · by_cases hb : b = Config.unlistedByte <;> simp [writeAt, readAt, hb, hc, hc.symm, hk.ne', Nat.not_lt.2 hk.le]

theorem wfFrom_writeAt {lo a : Nat} {m : Memory} (hm : wfFrom lo m = true) (hlo : lo ≤ a) (ha : a < 4294967296) (b : Byte) :
    wfFrom lo (writeAt m a b) = true := by
  induction m generalizing lo with
  | nil =>
    simp only [writeAt]
    split_ifs with h
    · rfl
    · exact wfFrom_cons.2 ⟨hlo, ha, h, rfl⟩
  | cons x m ih =>
    obtain ⟨k, v⟩ := x
    obtain ⟨h1, h2, h3, h4⟩ := wfFrom_cons.1 hm
    simp only [writeAt]
    split_ifs with g1 g2 g3 g4
    · exact wfFrom_cons.2 ⟨h1, h2, h3, ih h4 (by omega)⟩
    · exact wfFrom_mono (by omega) h4
    · exact hm
    · exact wfFrom_cons.2 ⟨hlo, ha, g2, g4 ▸ h4⟩
    · exact wfFrom_cons.2 ⟨hlo, ha, g2, wfFrom_cons.2 ⟨by omega, h2, h3, h4⟩⟩

/-- What a write lists was listed before or is the address written. -/
theorem mem_writeAt {m : Memory} {a : Nat} {b : Byte} {c : Host.Cell} (h : c ∈ writeAt m a b) : c ∈ m ∨ c.1 = a := by
  induction m with
  | nil =>
    simp only [writeAt] at h
    split_ifs at h
    · cases h
    · simp at h; simp [h]
  | cons x m ih =>
    obtain ⟨k, v⟩ := x
    simp only [writeAt] at h
    split_ifs at h <;> simp only [List.mem_cons] at h ⊢
    · rcases h with h | h
      · exact .inl (.inl h)
      · rcases ih h with h | h <;> simp [h]
    · exact .inl (.inr h)
    · exact .inl h
    · rcases h with h | h <;> simp [h]
    · rcases h with h | h | h <;> simp [h]

/-- A canonical memory is determined by what it reads. -/
theorem eq_of_readAt_eq {lo : Nat} {m n : Memory} (hm : wfFrom lo m = true) (hn : wfFrom lo n = true)
    (h : ∀ a, readAt m a = readAt n a) : m = n := by
  induction m generalizing lo n with
  | nil =>
    cases n with
    | nil => rfl
    | cons y n =>
      obtain ⟨k, v⟩ := y
      have := h k
      simp only [readAt, if_true] at this
      exact absurd this.symm (wfFrom_cons.1 hn).2.2.1
  | cons x m ih =>
    obtain ⟨j, u⟩ := x
    obtain ⟨m1, m2, m3, m4⟩ := wfFrom_cons.1 hm
    cases n with
    | nil =>
      have := h j
      simp only [readAt, if_true] at this
      exact absurd this m3
    | cons y n =>
      obtain ⟨k, v⟩ := y
      obtain ⟨n1, n2, n3, n4⟩ := wfFrom_cons.1 hn
      have hjk : j = k := by
        rcases Nat.lt_trichotomy j k with hlt | heq | hlt
        · have := h j
          simp only [readAt, if_true, show k ≠ j by omega, if_false] at this
          exact absurd (this.trans (readAt_below n4 (by omega))) m3
        · exact heq
        · have := h k
          simp only [readAt, if_true, show j ≠ k by omega, if_false] at this
          exact absurd (this.symm.trans (readAt_below m4 (by omega))) n3
      subst hjk
      have huv : u = v := by simpa [readAt] using h j
      subst huv
      have htail : m = n := by
        refine ih m4 n4 fun a => ?_
        by_cases ha : j = a
        · subst ha
          rw [readAt_below m4 (by omega), readAt_below n4 (by omega)]
        · simpa [readAt, ha] using h a
      rw [htail]

/-! ## Bytes, words and halves -/

/-- Reading a byte after writing one (R49). -/
theorem byte_setByte {m : Memory} (hm : m.wf = true) (a c : Word) (b : Byte) :
    (m.setByte a b).byte c = if c = a then b else m.byte c := by
  simp only [byte, setByte, readAt_writeAt hm, BitVec.toNat_inj]

theorem wf_setByte {m : Memory} (hm : m.wf = true) (a : Word) (b : Byte) : (m.setByte a b).wf = true :=
  wfFrom_writeAt hm (Nat.zero_le _) a.isLt b

/-- Canonical memories with the same bytes are equal. -/
theorem eq_of_byte_eq {m n : Memory} (hm : m.wf = true) (hn : n.wf = true) (h : ∀ a : Word, m.byte a = n.byte a) :
    m = n := by
  refine eq_of_readAt_eq hm hn fun a => ?_
  by_cases ha : a < 4294967296
  · have := h (BitVec.ofNat 32 a)
    simpa only [byte, BitVec.toNat_ofNat, Nat.mod_eq_of_lt (show a < 2 ^ 32 from ha)] using this
  · have high : ∀ {lo : Nat} {k : Memory}, wfFrom lo k = true → readAt k a = Config.unlistedByte := by
      intro lo k hk
      induction k generalizing lo with
      | nil => rfl
      | cons x k ih =>
        obtain ⟨j, v⟩ := x
        obtain ⟨-, h2, -, h4⟩ := wfFrom_cons.1 hk
        simp only [readAt, show j ≠ a by omega, if_false]
        exact ih h4
    rw [high hm, high hn]

/-- The four bytes of a stored word, and every other byte (R42). -/
theorem byte_setWord {m : Memory} (hm : m.wf = true) (a v c : Word) :
    (m.setWord a v).byte c =
      if c = a + 3#32 then v.extractLsb' 24 8 else if c = a + 2#32 then v.extractLsb' 16 8
      else if c = a + 1#32 then v.extractLsb' 8 8 else if c = a then v.extractLsb' 0 8 else m.byte c := by
  have h1 := wf_setByte hm a (v.extractLsb' 0 8)
  have h2 := wf_setByte h1 (a + 1#32) (v.extractLsb' 8 8)
  have h3 := wf_setByte h2 (a + 2#32) (v.extractLsb' 16 8)
  rw [setWord, byte_setByte h3, byte_setByte h2, byte_setByte h1, byte_setByte hm]

theorem wf_setWord {m : Memory} (hm : m.wf = true) (a v : Word) : (m.setWord a v).wf = true :=
  wf_setByte (wf_setByte (wf_setByte (wf_setByte hm _ _) _ _) _ _) _ _

/-- The two bytes of a placed instruction word, and every other byte. -/
theorem byte_setHalf {m : Memory} (hm : m.wf = true) (a c : Word) (w : InstWord) :
    (m.setHalf a w).byte c =
      if c = a + 1#32 then w.extractLsb' 8 8 else if c = a then w.extractLsb' 0 8 else m.byte c := by
  rw [setHalf, byte_setByte (wf_setByte hm _ _), byte_setByte hm]

theorem wf_setHalf {m : Memory} (hm : m.wf = true) (a : Word) (w : InstWord) : (m.setHalf a w).wf = true :=
  wf_setByte (wf_setByte hm _ _) _ _

/-- What a stored word lists was listed before or is one of its four addresses. -/
theorem mem_setWord {m : Memory} {a v : Word} {c : Host.Cell} (h : c ∈ m.setWord a v) :
    c ∈ m ∨ c.1 = a.toNat ∨ c.1 = (a + 1#32).toNat ∨ c.1 = (a + 2#32).toNat ∨ c.1 = (a + 3#32).toNat := by
  rcases mem_writeAt h with h | h
  · rcases mem_writeAt h with h | h
    · rcases mem_writeAt h with h | h
      · exact (mem_writeAt h).imp id .inl
      · exact .inr (.inr (.inl h))
    · exact .inr (.inr (.inr (.inl h)))
  · exact .inr (.inr (.inr (.inr h)))

end Sys2Proof.Machine.Memory
end

