-- ==== Sys2Proof/Laws/State.lean ====
section
/-! SUPPORT. One lemma for each field of `State` and each update of it, and the read-after-write law of the registers, so that
no later proof unfolds a record update. -/

namespace Sys2Proof.Machine

/-! ## `setPc` -/

@[simp] theorem setPc_pc (s : State) (t : Word) : (s.setPc t).pc = t := rfl
@[simp] theorem setPc_regs (s : State) (t : Word) : (s.setPc t).regs = s.regs := rfl
@[simp] theorem setPc_mem (s : State) (t : Word) : (s.setPc t).mem = s.mem := rfl
@[simp] theorem setPc_memMap (s : State) (t : Word) : (s.setPc t).memMap = s.memMap := rfl
@[simp] theorem setPc_endPc (s : State) (t : Word) : (s.setPc t).endPc = s.endPc := rfl
@[simp] theorem nextPc_eq (s : State) : s.nextPc = s.pc + 2#32 := rfl

/-! ## `setReg` -/

theorem setReg_zero (s : State) (v : Word) : s.setReg 0 v = s := rfl

@[simp] theorem setReg_pc (s : State) (r : Reg) (v : Word) : (s.setReg r v).pc = s.pc := by
  obtain ⟨_ | n, h⟩ := r <;> rfl

@[simp] theorem setReg_mem (s : State) (r : Reg) (v : Word) : (s.setReg r v).mem = s.mem := by
  obtain ⟨_ | n, h⟩ := r <;> rfl

@[simp] theorem setReg_memMap (s : State) (r : Reg) (v : Word) : (s.setReg r v).memMap = s.memMap := by
  obtain ⟨_ | n, h⟩ := r <;> rfl

@[simp] theorem setReg_endPc (s : State) (r : Reg) (v : Word) : (s.setReg r v).endPc = s.endPc := by
  obtain ⟨_ | n, h⟩ := r <;> rfl

/-! ## `reg` -/

@[simp] theorem reg_zero (s : State) : s.reg 0 = 0 := rfl

/-- `reg` looks at nothing but `regs`. -/
theorem reg_congr {s t : State} (h : t.regs = s.regs) (r : Reg) : t.reg r = s.reg r := by
  obtain ⟨_ | n, hn⟩ := r
  · rfl
  · simp only [State.reg, h]

@[simp] theorem reg_setPc (s : State) (t : Word) (r : Reg) : (s.setPc t).reg r = s.reg r :=
  reg_congr rfl r

/-- Reading a register after writing one (R12, R21). -/
theorem reg_setReg (s : State) (rd r : Reg) (v : Word) :
    (s.setReg rd v).reg r = if r = rd ∧ r ≠ 0 then v else s.reg r := by
  obtain ⟨_ | n, hn⟩ := rd <;> obtain ⟨_ | m, hm⟩ := r
  · simp [State.reg]
  · simp [State.setReg, State.reg, Fin.ext_iff]
  · simp [State.reg]
  · simp only [State.setReg, State.reg, Vector.getElem_set, Fin.ext_iff]
    by_cases h : n = m
    · simp [h]
    · have h' : m ≠ n := fun e => h e.symm
      simp [h, h']

@[simp] theorem reg_withMem (s : State) (m : Memory) (r : Reg) : State.reg { s with mem := m } r = s.reg r :=
  reg_congr rfl r

/-! ## `placeWord` -/

@[simp] theorem placeWord_pc (s : State) (w : InstWord) : (s.placeWord w).pc = s.pc := rfl
@[simp] theorem placeWord_regs (s : State) (w : InstWord) : (s.placeWord w).regs = s.regs := rfl
@[simp] theorem placeWord_mem (s : State) (w : InstWord) : (s.placeWord w).mem = s.mem.setHalf s.pc w := rfl
@[simp] theorem placeWord_memMap (s : State) (w : InstWord) :
    (s.placeWord w).memMap = ⟨s.pc, 2, false, false, true⟩ :: s.memMap := rfl
@[simp] theorem placeWord_endPc (s : State) (w : InstWord) :
    (s.placeWord w).endPc = if s.ended then none else s.endPc := rfl

/-! ## `launch` -/

@[simp] theorem launch_pc (p : Launch) : (State.launch p).pc = p.resetPc := rfl
@[simp] theorem launch_regs (p : Launch) : (State.launch p).regs = p.x0 := rfl
@[simp] theorem launch_mem (p : Launch) : (State.launch p).mem = p.mem0 := rfl
@[simp] theorem launch_memMap (p : Launch) : (State.launch p).memMap = p.memMap := rfl
@[simp] theorem launch_endPc (p : Launch) : (State.launch p).endPc = p.endPc := rfl

end Sys2Proof.Machine
end

