-- ==== Sys2Proof/Laws/Ops.lean ====
section
/-! SUPPORT. What each shared operation can do, said once: the checks in the terms of `Safety.lean`, the accesses and the fetch
by cases, and the ends of a step. -/

namespace Sys2Proof.Machine

/-! ## The checks -/

theorem wordAligned_iff (a : Word) : wordAligned a = true ↔ Aligned a := by
  simp [wordAligned, Aligned]

theorem wordAligned_eq_false (a : Word) : wordAligned a = false ↔ ¬ Aligned a := by
  rw [← wordAligned_iff, Bool.not_eq_true]

theorem everyByte_iff (p : Word → Bool) (a : Word) : everyByte p a = true ↔ AllFour p a := by
  simp [everyByte, AllFour, and_assoc]

theorem everyByte_eq_false (p : Word → Bool) (a : Word) : everyByte p a = false ↔ ¬ AllFour p a := by
  rw [← everyByte_iff, Bool.not_eq_true]

theorem someByte_iff (p : Word → Bool) (a : Word) : someByte p a = true ↔ SomeOfFour p a := by
  simp [someByte, SomeOfFour, or_assoc]

theorem someByte_eq_false (p : Word → Bool) (a : Word) : someByte p a = false ↔ ¬ SomeOfFour p a := by
  rw [← someByte_iff, Bool.not_eq_true]

theorem dataAddr_eq (rs1 : CReg) (u : BitVec 7) (s : State) : dataAddr rs1 u s = s.reg rs1.reg + zext32 u := rfl

@[simp] theorem ended_iff (s : State) : s.ended = true ↔ s.endPc = some s.pc := by
  simp [State.ended]

/-! ## The ends of a step -/

@[simp] theorem andThen_next {α β : Type} (a : α) (f : α → Result β) : andThen (.next a) f = f a := rfl

@[simp] theorem andThen_fault {α β : Type} (e : Fault) (f : α → Result β) : andThen (.fault e) f = .fault e := rfl

@[simp] theorem andThen_refused {α β : Type} (u : Refusal) (f : α → Result β) : andThen (.refused u) f = .refused u := rfl

/-- A sequence answers a value exactly if its first part does and the rest answers it. -/
theorem andThen_eq_next {α β : Type} {o : Result α} {f : α → Result β} {b : β} :
    andThen o f = .next b ↔ ∃ a, o = .next a ∧ f a = .next b := by
  cases o <;> simp

/-- A sequence faults exactly if its first part does or the rest does. -/
theorem andThen_eq_fault {α β : Type} {o : Result α} {f : α → Result β} {e : Fault} :
    andThen o f = .fault e ↔ o = .fault e ∨ ∃ a, o = .next a ∧ f a = .fault e := by
  cases o <;> simp

/-- A sequence is refused exactly if its first part is or the rest is. -/
theorem andThen_eq_refused {α β : Type} {o : Result α} {f : α → Result β} {u : Refusal} :
    andThen o f = .refused u ↔ o = .refused u ∨ ∃ a, o = .next a ∧ f a = .refused u := by
  cases o <;> simp

theorem raise_eq {α : Type} (s : State) (f : Word → Fault) : raise (α := α) s f = .fault (f s.pc) := rfl

theorem refuse_eq {α : Type} (u : Refusal) : refuse (α := α) u = .refused u := rfl

theorem retire_eq (s : State) : retire s = .next (s.setPc (s.pc + 2#32)) := rfl

theorem writeBack_eq (rd : Reg) (v : Word) (s : State) :
    writeBack rd v s = .next ((s.setReg rd v).setPc (s.pc + 2#32)) := by
  simp [writeBack, retire_eq]

/-- The state `writeBack` answers, in the words of `Safety.lean`. -/
theorem registerEffect_writeBack (rd : Reg) (v : Word) (s : State) :
    RegisterEffect rd v s ((s.setReg rd v).setPc (s.pc + 2#32)) :=
  ⟨fun r => by simp [reg_setReg], rfl, fun a => by simp, by simp, by simp⟩

/-- The state `retire` answers, in the words of `Safety.lean`. -/
theorem pcEffect_retire (s : State) : PcEffect s (s.setPc (s.pc + 2#32)) :=
  ⟨rfl, fun r => by simp, fun a => by simp, rfl, rfl⟩

/-! ## The accesses -/

/-- Everything `memRead` can do (R42, R44, R46, R47). -/
theorem memRead_cases (a : Word) (s : State) :
    (¬ Aligned a ∧ memRead a s = .fault (.loadAddressMisaligned a s.pc)) ∨
    (Aligned a ∧ ¬ AllFour s.memMap.readable a ∧ memRead a s = .fault (.loadAccessFault a s.pc)) ∨
    (Aligned a ∧ AllFour s.memMap.readable a ∧ memRead a s = .next (s.mem.word a)) := by
  by_cases h1 : Aligned a
  · by_cases h2 : AllFour s.memMap.readable a
    · refine .inr (.inr ⟨h1, h2, ?_⟩)
      simp [memRead, (wordAligned_iff a).2 h1, (everyByte_iff _ a).2 h2]
    · refine .inr (.inl ⟨h1, h2, ?_⟩)
      simp [memRead, (wordAligned_iff a).2 h1, (everyByte_eq_false _ a).2 h2, raise_eq]
  · refine .inl ⟨h1, ?_⟩
    simp [memRead, (wordAligned_eq_false a).2 h1, raise_eq]

/-- Everything `memWrite` can do (R42, R44, R46, R47, R53). -/
theorem memWrite_cases (a v : Word) (s : State) :
    (¬ Aligned a ∧ memWrite a v s = .fault (.storeAddressMisaligned a s.pc)) ∨
    (Aligned a ∧ ¬ AllFour s.memMap.writable a ∧ memWrite a v s = .fault (.storeAccessFault a s.pc)) ∨
    (Aligned a ∧ AllFour s.memMap.writable a ∧ SomeOfFour s.memMap.executable a ∧
      memWrite a v s = .refused (.storeToCode a)) ∨
    (Aligned a ∧ AllFour s.memMap.writable a ∧ ¬ SomeOfFour s.memMap.executable a ∧
      memWrite a v s = .next { s with mem := s.mem.setWord a v }) := by
  by_cases h1 : Aligned a
  · by_cases h2 : AllFour s.memMap.writable a
    · by_cases h3 : SomeOfFour s.memMap.executable a
      · refine .inr (.inr (.inl ⟨h1, h2, h3, ?_⟩))
        simp [memWrite, (wordAligned_iff a).2 h1, (everyByte_iff _ a).2 h2, (someByte_iff _ a).2 h3, refuse_eq]
      · refine .inr (.inr (.inr ⟨h1, h2, h3, ?_⟩))
        simp [memWrite, (wordAligned_iff a).2 h1, (everyByte_iff _ a).2 h2, (someByte_eq_false _ a).2 h3]
    · refine .inr (.inl ⟨h1, h2, ?_⟩)
      simp [memWrite, (wordAligned_iff a).2 h1, (everyByte_eq_false _ a).2 h2, raise_eq]
  · refine .inl ⟨h1, ?_⟩
    simp [memWrite, (wordAligned_eq_false a).2 h1, raise_eq]

/-- Everything `fetch` can do (R50). -/
theorem fetch_cases (s : State) :
    (s.memMap.executable s.pc = true ∧ s.memMap.executable (s.pc + 1#32) = true ∧ fetch s = .next (s.mem.half s.pc)) ∨
    (¬ (s.memMap.executable s.pc = true ∧ s.memMap.executable (s.pc + 1#32) = true) ∧
      fetch s = .fault (.instructionAccessFault s.pc)) := by
  by_cases h1 : s.memMap.executable s.pc = true <;> by_cases h2 : s.memMap.executable (s.pc + 1#32) = true <;>
    simp_all [fetch]

/-- A fetch that will be performed answers its word. -/
theorem fetch_of_fetches {s : State} {w : InstWord} (h : Fetches s w) : fetch s = .next w := by
  obtain ⟨-, h1, h2, h3⟩ := h
  simp [fetch, h1, h2, Memory.half, h3]

end Sys2Proof.Machine
end

