-- ==== Sys2Proof/Laws/PerInstr.lean ====
section
/-! SUPPORT. Laws about the instructions as syntax, one lemma for each constructor. -/

namespace Sys2Proof.Laws.EncodesItsRow

/-- An instruction's word has the fixed bits of its row of spec/opcode_table.json (R90, R91, R92, R93, R96). -/
def Statement (i : Instr) : Prop :=
  ∀ r : OpcodeRow, opcodeTable[i.row]? = some r → encode i &&& r.mask = r.pattern

/-- Two words are equal if each of their 16 bits is; the goals `simp` meets have literal bit numbers. -/
theorem word_ext {a b : InstWord} (h : ∀ j < 16, a.getLsbD j = b.getLsbD j) : a = b :=
  BitVec.eq_of_getLsbD_eq fun j hj => h j hj

theorem addi4spn (rd : CReg) (v : BitVec 10) : Statement (.addi4spn rd v) := by
  rintro r ⟨⟩
  refine word_ext fun j hj => ?_
  simp only [encode, BitVec.getLsbD_and, BitVec.getLsbD_append]
  interval_cases j <;> simp

theorem reservedAddi4spnImm0 (rd : CReg) : Statement (.reservedAddi4spnImm0 rd) := by
  rintro r ⟨⟩
  refine word_ext fun j hj => ?_
  simp only [encode, BitVec.getLsbD_and, BitVec.getLsbD_append]
  interval_cases j <;> simp

theorem lw (rd rs1 : CReg) (v : BitVec 7) : Statement (.lw rd rs1 v) := by
  rintro r ⟨⟩
  refine word_ext fun j hj => ?_
  simp only [encode, BitVec.getLsbD_and, BitVec.getLsbD_append]
  interval_cases j <;> simp

theorem sw (rs2 rs1 : CReg) (v : BitVec 7) : Statement (.sw rs2 rs1 v) := by
  rintro r ⟨⟩
  refine word_ext fun j hj => ?_
  simp only [encode, BitVec.getLsbD_and, BitVec.getLsbD_append]
  interval_cases j <;> simp

theorem nop : Statement .nop := by
  rintro r ⟨⟩
  rfl

theorem addi (rd : Reg) (v : BitVec 6) : Statement (.addi rd v) := by
  rintro r ⟨⟩
  refine word_ext fun j hj => ?_
  simp only [encode, BitVec.getLsbD_and, BitVec.getLsbD_append]
  interval_cases j <;> simp

theorem jal (v : BitVec 12) : Statement (.jal v) := by
  rintro r ⟨⟩
  refine word_ext fun j hj => ?_
  simp only [encode, BitVec.getLsbD_and, BitVec.getLsbD_append]
  interval_cases j <;> simp

theorem li (rd : Reg) (v : BitVec 6) : Statement (.li rd v) := by
  rintro r ⟨⟩
  refine word_ext fun j hj => ?_
  simp only [encode, BitVec.getLsbD_and, BitVec.getLsbD_append]
  interval_cases j <;> simp

theorem hintLiRd0 (v : BitVec 6) : Statement (.hintLiRd0 v) := by
  rintro r ⟨⟩
  refine word_ext fun j hj => ?_
  simp only [encode, BitVec.getLsbD_and, BitVec.getLsbD_append]
  interval_cases j <;> simp

theorem lui (rd : Reg) (v : BitVec 6) : Statement (.lui rd v) := by
  rintro r ⟨⟩
  refine word_ext fun j hj => ?_
  simp only [encode, BitVec.getLsbD_and, BitVec.getLsbD_append]
  interval_cases j <;> simp

theorem reservedLuiRd0 (v : BitVec 6) : Statement (.reservedLuiRd0 v) := by
  rintro r ⟨⟩
  refine word_ext fun j hj => ?_
  simp only [encode, BitVec.getLsbD_and, BitVec.getLsbD_append]
  interval_cases j <;> simp

theorem addi16sp (v : BitVec 10) : Statement (.addi16sp v) := by
  rintro r ⟨⟩
  refine word_ext fun j hj => ?_
  simp only [encode, BitVec.getLsbD_and, BitVec.getLsbD_append]
  interval_cases j <;> simp

theorem reservedAddi16spImm0 : Statement .reservedAddi16spImm0 := by
  rintro r ⟨⟩
  rfl

theorem srli (rd : CReg) (sh : BitVec 5) : Statement (.srli rd sh) := by
  rintro r ⟨⟩
  refine word_ext fun j hj => ?_
  simp only [encode, BitVec.getLsbD_and, BitVec.getLsbD_append]
  interval_cases j <;> simp

theorem hintSrliShamt0 (rd : CReg) : Statement (.hintSrliShamt0 rd) := by
  rintro r ⟨⟩
  refine word_ext fun j hj => ?_
  simp only [encode, BitVec.getLsbD_and, BitVec.getLsbD_append]
  interval_cases j <;> simp

theorem srai (rd : CReg) (sh : BitVec 5) : Statement (.srai rd sh) := by
  rintro r ⟨⟩
  refine word_ext fun j hj => ?_
  simp only [encode, BitVec.getLsbD_and, BitVec.getLsbD_append]
  interval_cases j <;> simp

theorem hintSraiShamt0 (rd : CReg) : Statement (.hintSraiShamt0 rd) := by
  rintro r ⟨⟩
  refine word_ext fun j hj => ?_
  simp only [encode, BitVec.getLsbD_and, BitVec.getLsbD_append]
  interval_cases j <;> simp

theorem reservedShiftShamt5 (k : ShiftKind) (rd : CReg) (sh : BitVec 5) : Statement (.reservedShiftShamt5 k rd sh) := by
  rintro r ⟨⟩
  refine word_ext fun j hj => ?_
  cases k <;> simp only [encode, ShiftKind.bits, BitVec.getLsbD_and, BitVec.getLsbD_append] <;> interval_cases j <;> simp

theorem andi (rd : CReg) (v : BitVec 6) : Statement (.andi rd v) := by
  rintro r ⟨⟩
  refine word_ext fun j hj => ?_
  simp only [encode, BitVec.getLsbD_and, BitVec.getLsbD_append]
  interval_cases j <;> simp

theorem sub (rd rs2 : CReg) : Statement (.sub rd rs2) := by
  rintro r ⟨⟩
  refine word_ext fun j hj => ?_
  simp only [encode, BitVec.getLsbD_and, BitVec.getLsbD_append]
  interval_cases j <;> simp

theorem xor (rd rs2 : CReg) : Statement (.xor rd rs2) := by
  rintro r ⟨⟩
  refine word_ext fun j hj => ?_
  simp only [encode, BitVec.getLsbD_and, BitVec.getLsbD_append]
  interval_cases j <;> simp

theorem undocQ0F001 (b : BitVec 11) : Statement (.undocQ0F001 b) := by
  rintro r ⟨⟩
  refine word_ext fun j hj => ?_
  simp only [encode, BitVec.getLsbD_and, BitVec.getLsbD_append]
  interval_cases j <;> simp

theorem undocQ0F011 (b : BitVec 11) : Statement (.undocQ0F011 b) := by
  rintro r ⟨⟩
  refine word_ext fun j hj => ?_
  simp only [encode, BitVec.getLsbD_and, BitVec.getLsbD_append]
  interval_cases j <;> simp

theorem undocQ0F100 (b : BitVec 11) : Statement (.undocQ0F100 b) := by
  rintro r ⟨⟩
  refine word_ext fun j hj => ?_
  simp only [encode, BitVec.getLsbD_and, BitVec.getLsbD_append]
  interval_cases j <;> simp

theorem undocQ0F101 (b : BitVec 11) : Statement (.undocQ0F101 b) := by
  rintro r ⟨⟩
  refine word_ext fun j hj => ?_
  simp only [encode, BitVec.getLsbD_and, BitVec.getLsbD_append]
  interval_cases j <;> simp

theorem undocQ0F111 (b : BitVec 11) : Statement (.undocQ0F111 b) := by
  rintro r ⟨⟩
  refine word_ext fun j hj => ?_
  simp only [encode, BitVec.getLsbD_and, BitVec.getLsbD_append]
  interval_cases j <;> simp

theorem undocQ1F101 (b : BitVec 11) : Statement (.undocQ1F101 b) := by
  rintro r ⟨⟩
  refine word_ext fun j hj => ?_
  simp only [encode, BitVec.getLsbD_and, BitVec.getLsbD_append]
  interval_cases j <;> simp

theorem undocQ1F110 (b : BitVec 11) : Statement (.undocQ1F110 b) := by
  rintro r ⟨⟩
  refine word_ext fun j hj => ?_
  simp only [encode, BitVec.getLsbD_and, BitVec.getLsbD_append]
  interval_cases j <;> simp

theorem undocQ1F111 (b : BitVec 11) : Statement (.undocQ1F111 b) := by
  rintro r ⟨⟩
  refine word_ext fun j hj => ?_
  simp only [encode, BitVec.getLsbD_and, BitVec.getLsbD_append]
  interval_cases j <;> simp

theorem undocQ1Ca1x (hi : BitVec 3) (lo : BitVec 4) : Statement (.undocQ1Ca1x hi lo) := by
  rintro r ⟨⟩
  refine word_ext fun j hj => ?_
  simp only [encode, BitVec.getLsbD_and, BitVec.getLsbD_append]
  interval_cases j <;> simp

theorem undocQ1F100111 (b : BitVec 8) : Statement (.undocQ1F100111 b) := by
  rintro r ⟨⟩
  refine word_ext fun j hj => ?_
  simp only [encode, BitVec.getLsbD_and, BitVec.getLsbD_append]
  interval_cases j <;> simp

theorem undocQ2 (b : BitVec 14) : Statement (.undocQ2 b) := by
  rintro r ⟨⟩
  refine word_ext fun j hj => ?_
  simp only [encode, BitVec.getLsbD_and, BitVec.getLsbD_append]
  interval_cases j <;> simp

theorem undocOp11 (b : BitVec 14) : Statement (.undocOp11 b) := by
  rintro r ⟨⟩
  refine word_ext fun j hj => ?_
  simp only [encode, BitVec.getLsbD_and, BitVec.getLsbD_append]
  interval_cases j <;> simp

end Sys2Proof.Laws.EncodesItsRow
end

