-- ==== Sys2Proof/Laws/Step.lean ====
section
/-! SUPPORT. What `exec` and `step` can do, said once, and the induction over a run. -/

namespace Sys2Proof.Machine

/-- Everything an instruction can lead to: a register written and the pc advanced; the pc advanced alone; C.JAL; C.SW. -/
theorem exec_next_cases {i : Instr} {s t : State} (h : exec i s = .next t) :
    (∃ rd v, i.dest = some rd ∧ (∀ imm, i ≠ .jal imm) ∧ t = (s.setReg rd v).setPc (s.pc + 2#32)) ∨
    (i.dest = none ∧ (∀ rs2 rs1 u, i ≠ .sw rs2 rs1 u) ∧ t = s.setPc (s.pc + 2#32)) ∨
    (∃ imm, i = .jal imm ∧ t = (s.setReg 1 (s.pc + 2#32)).setPc (s.pc + sext32 imm)) ∨
    (∃ rs2 rs1 u, i = .sw rs2 rs1 u ∧ Aligned (s.reg rs1.reg + zext32 u) ∧
      AllFour s.memMap.writable (s.reg rs1.reg + zext32 u) ∧ ¬ SomeOfFour s.memMap.executable (s.reg rs1.reg + zext32 u) ∧
      t = State.setPc { s with mem := s.mem.setWord (s.reg rs1.reg + zext32 u) (s.reg rs2.reg) } (s.pc + 2#32)) := by
  have regCase : ∀ {rd v}, i.dest = some rd → (∀ imm, i ≠ .jal imm) → writeBack rd v s = .next t →
      ∃ rd v, i.dest = some rd ∧ (∀ imm, i ≠ .jal imm) ∧ t = (s.setReg rd v).setPc (s.pc + 2#32) := by
    intro rd v hd hj hw
    rw [writeBack_eq] at hw
    exact ⟨rd, v, hd, hj, by injection hw with hw; exact hw.symm⟩
  have pcCase : retire s = .next t → t = s.setPc (s.pc + 2#32) := by
    intro hr
    rw [retire_eq] at hr
    injection hr with hr
    exact hr.symm
  cases i with
  | sw rs2 rs1 u =>
    right; right; right
    refine ⟨rs2, rs1, u, rfl, ?_⟩
    obtain ⟨s', h1, h2⟩ := andThen_eq_next.1 h
    rw [dataAddr_eq] at h1
    rw [retire_eq] at h2
    rcases memWrite_cases (s.reg rs1.reg + zext32 u) (s.reg rs2.reg) s with
      ⟨-, e⟩ | ⟨-, -, e⟩ | ⟨-, -, -, e⟩ | ⟨g1, g2, g3, e⟩ <;> rw [e] at h1 <;> cases h1
    cases h2
    exact ⟨g1, g2, g3, rfl⟩
  | lw rd rs1 u =>
    obtain ⟨v, -, h2⟩ := andThen_eq_next.1 h
    exact .inl (regCase rfl (fun _ => Instr.noConfusion) h2)
  | jal imm =>
    right; right; left
    injection h with h
    exact ⟨imm, rfl, h.symm⟩
  | addi4spn rd v => exact .inl (regCase rfl (fun _ => Instr.noConfusion) h)
  | addi rd v => exact .inl (regCase rfl (fun _ => Instr.noConfusion) h)
  | li rd v => exact .inl (regCase rfl (fun _ => Instr.noConfusion) h)
  | lui rd v => exact .inl (regCase rfl (fun _ => Instr.noConfusion) h)
  | addi16sp v => exact .inl (regCase rfl (fun _ => Instr.noConfusion) h)
  | srli rd v => exact .inl (regCase rfl (fun _ => Instr.noConfusion) h)
  | srai rd v => exact .inl (regCase rfl (fun _ => Instr.noConfusion) h)
  | andi rd v => exact .inl (regCase rfl (fun _ => Instr.noConfusion) h)
  | sub rd rs2 => exact .inl (regCase rfl (fun _ => Instr.noConfusion) h)
  | xor rd rs2 => exact .inl (regCase rfl (fun _ => Instr.noConfusion) h)
  | nop => exact .inr (.inl ⟨rfl, fun _ _ _ => Instr.noConfusion, pcCase h⟩)
  | hintLiRd0 v => exact .inr (.inl ⟨rfl, fun _ _ _ => Instr.noConfusion, pcCase h⟩)
  | hintSrliShamt0 rd => exact .inr (.inl ⟨rfl, fun _ _ _ => Instr.noConfusion, pcCase h⟩)
  | hintSraiShamt0 rd => exact .inr (.inl ⟨rfl, fun _ _ _ => Instr.noConfusion, pcCase h⟩)
  | _ => cases h

/-- Everything a step that goes on can be: the run has ended, or the fetched word's instruction is performed (R25). -/
theorem step_next_cases {s t : State} (h : step s = .next t) :
    (s.endPc = some s.pc ∧ t = s) ∨ ∃ w, Fetches s w ∧ exec (decode w) s = .next t := by
  unfold step at h
  by_cases he : s.ended = true
  · rw [if_pos he] at h
    injection h with h
    exact .inl ⟨(ended_iff s).1 he, h.symm⟩
  · rw [if_neg he] at h
    obtain ⟨w, h1, h2⟩ := andThen_eq_next.1 h
    rcases fetch_cases s with ⟨e1, e2, e⟩ | ⟨-, e⟩ <;> rw [e] at h1 <;> cases h1
    exact .inr ⟨_, ⟨fun g => he ((ended_iff s).2 g), e1, e2, rfl⟩, h2⟩

/-! ## Runs -/

theorem runsTo_zero {s t : State} : RunsTo 0 s t ↔ t = s :=
  ⟨fun h => by injection h with h; exact h.symm, fun h => h ▸ rfl⟩

/-- One more step of any machine's run. -/
theorem run_succ_eq_next (M : Host.Core) (k : Nat) (s t : M.State) :
    M.run (k + 1) s = .next t ↔ ∃ u, M.step s = .next u ∧ M.run k u = .next t := by
  rw [Host.Core.run]
  cases M.step s <;> simp

theorem runsTo_succ {k : Nat} {s t : State} : RunsTo (k + 1) s t ↔ ∃ u, step s = .next u ∧ RunsTo k u t :=
  run_succ_eq_next Sys2Proof.core k s t

/-- What every step keeps, every run keeps. -/
theorem runsTo_keeps {P : State → Prop} (hstep : ∀ s t, P s → step s = .next t → P t) {k : Nat} {s t : State} (hs : P s)
    (h : RunsTo k s t) : P t := by
  induction k generalizing s with
  | zero => exact runsTo_zero.1 h ▸ hs
  | succ k ih =>
    obtain ⟨u, h1, h2⟩ := runsTo_succ.1 h
    exact ih (hstep s u hs h1) h2

end Sys2Proof.Machine
end

