-- ==== Sys2Proof/Tests/Slice0.lean ====
section
/-! SUPPORT. Tests: ill-formed terms, the decoding of words written out by the spec, one step of each instruction with the
spec's own vectors (spec/95_test_vectors.md section 2), and a witness for the hypotheses of each statement. -/

namespace Sys2Proof.Tests

open Sys2Proof.Machine

/-! ## Ill-formed terms are refused by the check (WellFormed.lean) -/

theorem test_wf_addi4spn_zero : Instr.wf (.addi4spn 0 0) = false := by decide
theorem test_wf_addi4spn_low_bits : Instr.wf (.addi4spn 0 6) = false := by decide
theorem test_wf_lw_low_bits : Instr.wf (.lw 0 0 2) = false := by decide
theorem test_wf_sw_low_bits : Instr.wf (.sw 0 0 1) = false := by decide
theorem test_wf_addi_is_nop : Instr.wf (.addi 0 0) = false := by decide
theorem test_wf_jal_odd : Instr.wf (.jal 3) = false := by decide
theorem test_wf_li_x0 : Instr.wf (.li 0 5) = false := by decide
theorem test_wf_lui_x0 : Instr.wf (.lui 0 1) = false := by decide
theorem test_wf_lui_x2 : Instr.wf (.lui 2 1) = false := by decide
theorem test_wf_addi16sp_zero : Instr.wf (.addi16sp 0) = false := by decide
theorem test_wf_addi16sp_low_bits : Instr.wf (.addi16sp 8) = false := by decide
theorem test_wf_srli_zero : Instr.wf (.srli 0 0) = false := by decide
theorem test_wf_srai_zero : Instr.wf (.srai 0 0) = false := by decide
theorem test_wf_allowed_corners :
    Instr.wf (.lui 10 0) = true ∧ Instr.wf (.addi 0 5) = true ∧ Instr.wf (.addi 10 0) = true := by decide

/-! ## Words written out bit by bit from the Encoding items of the instruction rules -/

theorem test_decode_addi4spn : decode 0b000_00_0000_0_1_010_00#16 = .addi4spn 2 8 := by decide
theorem test_decode_addi4spn_scatter : decode 0b000_01_0010_1_0_111_00#16 = .addi4spn 7 148 := by decide
theorem test_decode_reservedAddi4spnImm0 : decode 0b000_00000000_111_00#16 = .reservedAddi4spnImm0 7 := by decide
theorem test_decode_lw : decode 0b010_000_011_1_0_010_00#16 = .lw 2 3 4 := by decide
theorem test_decode_lw_scatter : decode 0b010_010_101_1_1_100_00#16 = .lw 4 5 84 := by decide
theorem test_decode_sw : decode 0b110_000_011_1_0_010_00#16 = .sw 2 3 4 := by decide
theorem test_decode_nop : decode 0b000_0_00000_00000_01#16 = .nop := by decide
theorem test_decode_addi : decode 0b000_1_01010_11111_01#16 = .addi 10 (-1) := by decide
theorem test_decode_jal : decode 0b001_0_0_00_0_0_0_100_0_01#16 = .jal 8 := by decide
theorem test_decode_jal_scatter : decode 0b001_1_0_01_0_1_0_010_1_01#16 = .jal (-1692) := by decide
theorem test_decode_li : decode 0b010_0_01010_00101_01#16 = .li 10 5 := by decide
theorem test_decode_hintLiRd0 : decode 0b010_0_00000_00111_01#16 = .hintLiRd0 7 := by decide
theorem test_decode_lui : decode 0b011_0_01010_00001_01#16 = .lui 10 1 := by decide
theorem test_decode_reservedLuiRd0 : decode 0b011_0_00000_00001_01#16 = .reservedLuiRd0 1 := by decide
theorem test_decode_addi16sp : decode 0b011_1_00010_0_1_11_0_01#16 = .addi16sp (-64) := by decide
theorem test_decode_reservedAddi16spImm0 : decode 0b011_0_00010_00000_01#16 = .reservedAddi16spImm0 := by decide
theorem test_decode_srli : decode 0b100_0_00_010_00100_01#16 = .srli 2 4 := by decide
theorem test_decode_hintSrliShamt0 : decode 0b100_0_00_010_00000_01#16 = .hintSrliShamt0 2 := by decide
theorem test_decode_srai : decode 0b100_0_01_010_00100_01#16 = .srai 2 4 := by decide
theorem test_decode_hintSraiShamt0 : decode 0b100_0_01_010_00000_01#16 = .hintSraiShamt0 2 := by decide
theorem test_decode_reservedShiftShamt5 :
    decode 0b100_1_00_010_00100_01#16 = .reservedShiftShamt5 .srli 2 4 ∧
    decode 0b100_1_01_010_00000_01#16 = .reservedShiftShamt5 .srai 2 0 := by decide
theorem test_decode_andi : decode 0b100_0_10_010_01111_01#16 = .andi 2 15 := by decide
theorem test_decode_sub : decode 0b100011_010_00_011_01#16 = .sub 2 3 := by decide
theorem test_decode_xor : decode 0b100011_010_01_011_01#16 = .xor 2 3 := by decide
theorem test_decode_undocQ0 :
    decode 0x2000#16 = .undocQ0F001 0 ∧ decode 0x6000#16 = .undocQ0F011 0 ∧ decode 0x8000#16 = .undocQ0F100 0 ∧
    decode 0xA000#16 = .undocQ0F101 0 ∧ decode 0xFFFC#16 = .undocQ0F111 0x7FF := by decide
theorem test_decode_undocQ1 :
    decode 0xA001#16 = .undocQ1F101 0 ∧ decode 0xC001#16 = .undocQ1F110 0 ∧ decode 0xFFFD#16 = .undocQ1F111 0x7FF ∧
    decode 0x8C61#16 = .undocQ1Ca1x 0 8 ∧ decode 0x8FDD#16 = .undocQ1Ca1x 7 7 ∧ decode 0x9C21#16 = .undocQ1F100111 8 := by
  decide
theorem test_decode_op10_op11 :
    decode 0x8082#16 = .undocQ2 0x2020 ∧ decode 0x0073#16 = .undocOp11 0x1C := by decide

/-- The host's numbering of a row's bits is that of the word. -/
theorem test_decodeTableWord :
    decodeTableWord 16 0x41C8 = some (.lw 2 3 4) ∧ decodeTableWord 8 0x41C8 = some (decode 0x00C8#16) ∧
    decodeTableWord 32 0x41C8 = none := by decide

/-! ## One step of each instruction (vectors of spec/95_test_vectors.md 2.1 to 2.11) -/

/-- The setting of the vectors: pc = 0x100 with the word there executable, `0x2000..0x2FFF` and `0x0..0xF` readable and
writable; the given registers and memory words, every other register 0. -/
def testState (w : InstWord) (regs : List (Reg × Word)) (words : List (Word × Word)) : State :=
  let s : State :=
    { regs := Vector.replicate 31 0, pc := 0x100, mem := words.foldl (fun m p => m.setWord p.1 p.2) [],
      memMap := [⟨0x2000, 0x1000, true, true, false⟩, ⟨0, 16, true, true, false⟩], endPc := none }
  (regs.foldl (fun s p => s.setReg p.1 p.2) s).placeWord w

/-- The state after a step, if it answers one. -/
def stateAfter (s : State) : Option State :=
  match step s with
  | .next t => some t
  | .fault _ => none
  | .refused _ => none

/-- The fault a step ends in, if it does. -/
def faultOf (s : State) : Option Fault :=
  match step s with
  | .next _ => none
  | .fault f => some f
  | .refused _ => none

/-- The refusal a step ends in, if it does. -/
def refusalOf (s : State) : Option Refusal :=
  match step s with
  | .next _ => none
  | .fault _ => none
  | .refused r => some r

/-- One register and the pc after a step. -/
def regPcAfter (s : State) (r : Reg) : Option (Word × Word) := (stateAfter s).map fun t => (t.reg r, t.pc)

theorem test_addi4spn :
    regPcAfter (testState 0x0028 [(2, 0x1000)] []) 10 = some (0x1008, 0x102) := by decide
theorem test_addi4spn_wraps :
    regPcAfter (testState 0x0804 [(2, 0xFFFFFFFC)] []) 9 = some (0xC, 0x102) := by decide
theorem test_reservedAddi4spnImm0 :
    faultOf (testState 0x001C [] []) = some (.illegalInstruction 0x001C 0x100) := by decide
theorem test_lw :
    regPcAfter (testState 0x41C8 [(11, 0x2000)] [(0x2004, 0x12345678)]) 10 = some (0x12345678, 0x102) := by decide
theorem test_lw_base_is_destination_and_address_wraps :
    regPcAfter (testState 0x4000 [(8, 0x2000)] [(0x2000, 0xDEADBEEF)]) 8 = some (0xDEADBEEF, 0x102) ∧
    regPcAfter (testState 0x4588 [(11, 0xFFFFFFFC)] [(4, 0xDDCCBBAA)]) 10 = some (0xDDCCBBAA, 0x102) := by decide
theorem test_sw_bytes :
    (stateAfter (testState 0xC1C8 [(10, 0xDEADBEEF), (11, 0x2000)] [])).map (fun t => t.mem.drop 2) =
      some [(0x2004, 0xEF), (0x2005, 0xBE), (0x2006, 0xAD), (0x2007, 0xDE)] := by decide
theorem test_sw_base_is_data :
    (stateAfter (testState 0xC000 [(8, 0x2000)] [(0x2000, 0xFFFFFFFF)])).map (fun t => (t.mem.drop 1, t.pc)) =
      some ([(0x2001, 0x20)], 0x102) := by decide
theorem test_addi_wraps : regPcAfter (testState 0x0505 [(10, 0x7FFFFFFF)] []) 10 = some (0x80000000, 0x102) := by decide
theorem test_addi_x0_discards : regPcAfter (testState 0x0015 [] []) 0 = some (0, 0x102) := by decide
theorem test_nop : (stateAfter (testState 0x0001 [(10, 7)] [])) = some ((testState 0x0001 [(10, 7)] []).setPc 0x102) := by
  decide
theorem test_jal_backward : regPcAfter (testState 0x3FFD [] []) 1 = some (0x102, 0xFE) := by decide
theorem test_jal_forward : regPcAfter (testState 0x2101 [(1, 9)] []) 1 = some (0x102, 0x500) := by decide
theorem test_li_negative : regPcAfter (testState 0x5501 [] []) 10 = some (0xFFFFFFE0, 0x102) := by decide
theorem test_li_sp : regPcAfter (testState 0x5141 [] []) 2 = some (0xFFFFFFF0, 0x102) := by decide
theorem test_hintLiRd0 :
    (stateAfter (testState 0x401D [(10, 7)] [])) = some ((testState 0x401D [(10, 7)] []).setPc 0x102) := by decide
theorem test_lui_negative : regPcAfter (testState 0x7501 [] []) 10 = some (0xFFFE0000, 0x102) := by decide
theorem test_lui_zero_immediate : regPcAfter (testState 0x6501 [(10, 5)] []) 10 = some (0, 0x102) := by decide
theorem test_reservedLuiRd0 :
    faultOf (testState 0x6005 [] []) = some (.illegalInstruction 0x6005 0x100) := by decide
theorem test_addi16sp_negative : regPcAfter (testState 0x7139 [(2, 0x2000)] []) 2 = some (0x1FC0, 0x102) := by decide
theorem test_addi16sp_wraps : regPcAfter (testState 0x6105 [(2, 0xFFFFFFF0)] []) 2 = some (0x10, 0x102) := by decide
theorem test_reservedAddi16spImm0 :
    faultOf (testState 0x6101 [] []) = some (.illegalInstruction 0x6101 0x100) := by decide
theorem test_srli : regPcAfter (testState 0x8111 [(10, 0x80000010)] []) 10 = some (0x08000001, 0x102) := by decide
theorem test_srli_by_31 : regPcAfter (testState 0x83FD [(15, 0x80000000)] []) 15 = some (1, 0x102) := by decide
theorem test_hintSrliShamt0 : regPcAfter (testState 0x8101 [(10, 0x12345678)] []) 10 = some (0x12345678, 0x102) := by decide
theorem test_srai : regPcAfter (testState 0x8511 [(10, 0x80000010)] []) 10 = some (0xF8000001, 0x102) := by decide
theorem test_srai_by_31 : regPcAfter (testState 0x87FD [(15, 0x80000000)] []) 15 = some (0xFFFFFFFF, 0x102) := by decide
theorem test_hintSraiShamt0 : regPcAfter (testState 0x8501 [(10, 0x12345678)] []) 10 = some (0x12345678, 0x102) := by decide
theorem test_reservedShiftShamt5 :
    faultOf (testState 0x9111 [] []) = some (.illegalInstruction 0x9111 0x100) ∧
    faultOf (testState 0x97FD [] []) = some (.illegalInstruction 0x97FD 0x100) := by decide
theorem test_andi_sign_extends : regPcAfter (testState 0x9901 [(10, 0x12345678)] []) 10 = some (0x12345660, 0x102) := by decide
theorem test_andi : regPcAfter (testState 0x893D [(10, 0x12345678)] []) 10 = some (8, 0x102) := by decide
theorem test_sub_operand_order :
    regPcAfter (testState 0x8D89 [(11, 0xFF00), (10, 0xFF0)] []) 11 = some (0xEF10, 0x102) := by decide
theorem test_sub_borrows : regPcAfter (testState 0x8D0D [(10, 5), (11, 7)] []) 10 = some (0xFFFFFFFE, 0x102) := by decide
theorem test_xor : regPcAfter (testState 0x8D2D [(10, 0xFF00), (11, 0xFF0)] []) 10 = some (0xF0F0, 0x102) := by decide
theorem test_xor_same : regPcAfter (testState 0x8D29 [(10, 0x12345678)] []) 10 = some (0, 0x102) := by decide
theorem test_undocumented_q0_q1 :
    refusalOf (testState 0x2000 [] []) = some (.undocumented 0x2000) ∧
    refusalOf (testState 0x8C41 [] []) = some (.undocumented 0x8C41) ∧
    refusalOf (testState 0x9C21 [] []) = some (.undocumented 0x9C21) := by decide
theorem test_undocumented_op10_op11 :
    refusalOf (testState 0x8082 [] []) = some (.undocumented 0x8082) ∧
    refusalOf (testState 0xFFFF [] []) = some (.undocumented 0xFFFF) := by decide

/-- Vector 2.2: misaligned is reported before the access fault; the effective address is recorded. -/
theorem test_lw_faults :
    faultOf (testState 0x41C8 [(11, 0x2FFE)] []) = some (.loadAddressMisaligned 0x3002 0x100) ∧
    faultOf (testState 0x41C8 [(11, 0x2FFC)] []) = some (.loadAccessFault 0x3000 0x100) := by decide
theorem test_sw_stops :
    faultOf (testState 0xC1C8 [(11, 0x2003)] []) = some (.storeAddressMisaligned 0x2007 0x100) ∧
    faultOf (testState 0xC188 [(11, 0x3000)] []) = some (.storeAccessFault 0x3000 0x100) ∧
    refusalOf { testState 0xC188 [(11, 0x100)] [] with memMap := [⟨0x100, 4, true, true, true⟩] } =
      some (.storeToCode 0x100) := by decide
theorem test_fetch_faults :
    faultOf State.reset = some (.instructionAccessFault 0x100) ∧
    faultOf { testState 0x0001 [] [] with memMap := [⟨0x100, 1, true, true, true⟩] } =
      some (.instructionAccessFault 0x100) := by decide
theorem test_runs_from_reset :
    regPcAfter (State.reset.withFetchWord 16 0x4515) 10 = some (5, 0x102) := by decide

/-! ## Witnesses: for each statement with hypotheses, a state and operands that meet all of them

A statement whose only hypotheses are those of another has no witness of its own. -/

/-- A launch other than the named one: END_PC present and even, memory listed, all of it admitted. -/
def witnessLaunch : Launch where
  resetPc := 0x100
  endPc := some 0x10C
  memMap := [⟨0x100, 12, true, false, true⟩]
  mem0 := [(0x100, 0x01), (0x10B, 0xFF)]
  x0 := Vector.replicate 31 0xFFFFFFFF

theorem witness_LaunchWf : witnessLaunch.Wf ∧ Launch.named.Wf :=
  ⟨⟨by decide, by rintro e ⟨⟩; decide, by decide, by decide⟩, ⟨by decide, by simp [Launch.named, Config.resetEndPc], by decide, by decide⟩⟩

theorem witness_EveryLaunchIsRepresentable :
    Even32 0xFFFFFFFE#32 ∧ ∀ e, some 0x10C#32 = some e → Even32 e := by
  refine ⟨by decide, ?_⟩
  rintro e ⟨⟩
  decide

theorem witness_DecodeOfEncode :
    Instr.wf (.jal (-2048)) = true ∧ Instr.wf (.addi4spn 7 1020) = true ∧ Instr.wf (.addi16sp (-512)) = true ∧
    Instr.wf (.lui 31 0) = true ∧ Instr.wf (.srai 7 31) = true ∧ Instr.wf (.undocOp11 0x3FFF) = true := by decide

theorem witness_OpcodeTableIsPartition :
    (∃ r, opcodeTable[0]? = some r ∧ r.admits 0x1FFC = true) ∧ ∃ r, opcodeTable[32]? = some r ∧ r.admits 0xFFFF = true :=
  ⟨⟨_, rfl, by decide⟩, ⟨_, rfl, by decide⟩⟩

theorem witness_StepRunsDecodedInstruction :
    Fetches (testState 0x41C8 [] []) 0x41C8 ∧
    decode ((testState 0x41C8 [] []).mem.byte 0x101 ++ (testState 0x41C8 [] []).mem.byte 0x100) = .lw 2 3 4 := by decide

/-- Both bytes executable at the last two of a region; only the first; only the second; at the last byte of a region. -/
theorem witness_FetchReadsTwoExecutableBytes :
    (let m : MemMap := [⟨0x100, 2, false, false, true⟩]; m.executable 0x100 = true ∧ m.executable 0x101 = true ∧
      m.executable 0x102 = false) ∧
    (let m : MemMap := [⟨0x100, 1, false, false, true⟩]; m.executable 0x100 = true ∧ m.executable 0x101 = false) ∧
    (let m : MemMap := [⟨0x101, 1, false, false, true⟩]; m.executable 0x100 = false ∧ m.executable 0x101 = true) ∧
    State.reset.endPc ≠ some State.reset.pc ∧ State.reset.memMap.executable State.reset.pc = false := by decide

/-- A state at END_PC. -/
def endedState : State := { testState 0x0001 [] [] with endPc := some 0x100 }

theorem witness_EndedRunStaysInItsFinalState : endedState.endPc = some endedState.pc ∧ step endedState = .next endedState := by
  exact ⟨by decide, rfl⟩

theorem witness_PlacedWordIsRunNext : State.reset.mem.wf = true ∧ (0x101#32 : Word) ≠ State.reset.pc + 2#32 := by decide

/-- The decoding hypotheses of the instruction rules, each at a word of its range (last bits set where there are any). -/
theorem witness_decoding_hypotheses :
    ((0x1FFC#16).extractLsb' 0 2 = 0b00#2 ∧ (0x1FFC#16).extractLsb' 13 3 = 0b000#3 ∧ (0x1FFC#16).extractLsb' 5 8 ≠ 0#8) ∧
    ((0x5FFC#16).extractLsb' 0 2 = 0b00#2 ∧ (0x5FFC#16).extractLsb' 13 3 = 0b010#3) ∧
    ((0xDFFC#16).extractLsb' 0 2 = 0b00#2 ∧ (0xDFFC#16).extractLsb' 13 3 = 0b110#3) ∧
    ((0x0081#16).extractLsb' 0 2 = 0b01#2 ∧ (0x0081#16).extractLsb' 13 3 = 0b000#3 ∧ (0x0081#16 : InstWord) ≠ 0x0001#16) ∧
    ((0x3FFD#16).extractLsb' 0 2 = 0b01#2 ∧ (0x3FFD#16).extractLsb' 13 3 = 0b001#3) ∧
    ((0x4081#16).extractLsb' 0 2 = 0b01#2 ∧ (0x4081#16).extractLsb' 13 3 = 0b010#3 ∧ (0x4081#16).extractLsb' 7 5 ≠ 0#5) ∧
    ((0x6081#16).extractLsb' 0 2 = 0b01#2 ∧ (0x6081#16).extractLsb' 13 3 = 0b011#3 ∧ (0x6081#16).extractLsb' 7 5 ≠ 0#5 ∧
      (0x6081#16).extractLsb' 7 5 ≠ 2#5) ∧
    ((0x7101#16).extractLsb' 0 2 = 0b01#2 ∧ (0x7101#16).extractLsb' 13 3 = 0b011#3 ∧ (0x7101#16).extractLsb' 7 5 = 2#5 ∧
      (0x7101#16 : InstWord) ≠ 0x6101#16) := by decide

theorem witness_decoding_hypotheses_alu :
    ((0x83FD#16).extractLsb' 0 2 = 0b01#2 ∧ (0x83FD#16).extractLsb' 13 3 = 0b100#3 ∧ (0x83FD#16).extractLsb' 12 1 = 0b0#1 ∧
      (0x83FD#16).extractLsb' 10 2 = 0b00#2 ∧ (0x83FD#16).extractLsb' 2 5 ≠ 0#5) ∧
    ((0x87FD#16).extractLsb' 0 2 = 0b01#2 ∧ (0x87FD#16).extractLsb' 13 3 = 0b100#3 ∧ (0x87FD#16).extractLsb' 12 1 = 0b0#1 ∧
      (0x87FD#16).extractLsb' 10 2 = 0b01#2 ∧ (0x87FD#16).extractLsb' 2 5 ≠ 0#5) ∧
    ((0x9BFD#16).extractLsb' 0 2 = 0b01#2 ∧ (0x9BFD#16).extractLsb' 13 3 = 0b100#3 ∧ (0x9BFD#16).extractLsb' 10 2 = 0b10#2) ∧
    ((0x8F9D#16).extractLsb' 0 2 = 0b01#2 ∧ (0x8F9D#16).extractLsb' 10 6 = 0b100011#6 ∧ (0x8F9D#16).extractLsb' 5 2 = 0b00#2) ∧
    ((0x8FBD#16).extractLsb' 0 2 = 0b01#2 ∧ (0x8FBD#16).extractLsb' 10 6 = 0b100011#6 ∧ (0x8FBD#16).extractLsb' 5 2 = 0b01#2) ∧
    ((0x507D#16).extractLsb' 0 2 = 0b01#2 ∧ (0x507D#16).extractLsb' 13 3 = 0b010#3 ∧ (0x507D#16).extractLsb' 7 5 = 0#5) ∧
    ((0x8381#16).extractLsb' 13 3 = 0b100#3 ∧ (0x8381#16).extractLsb' 12 1 = 0b0#1 ∧ (0x8381#16).extractLsb' 2 5 = 0#5 ∧
      (0x8381#16).extractLsb' 10 2 = 0b00#2) ∧
    ((0x8781#16).extractLsb' 13 3 = 0b100#3 ∧ (0x8781#16).extractLsb' 12 1 = 0b0#1 ∧ (0x8781#16).extractLsb' 2 5 = 0#5 ∧
      (0x8781#16).extractLsb' 10 2 = 0b01#2) := by decide

/-- A data address at the last readable and writable word of the test map. -/
theorem witness_LwRule_SwRule :
    let s := testState 0x0001 [(11, 0x2F80)] []
    let a : Word := s.reg (CReg.reg 3) + zext32 (124#7)
    s.mem.wf = true ∧ a = 0x2FFC ∧ Aligned a ∧ AllFour s.memMap.readable a ∧ AllFour s.memMap.writable a ∧
      ¬ SomeOfFour s.memMap.executable a := by decide

/-- A C.LW and a C.SW that answer a next state, at that same last word. -/
theorem witness_LwRule_SwRule_next :
    let s := testState 0x0001 [(10, 0x000000FF), (11, 0x2F80)] []
    exec (.lw 2 3 124) s = .next ((s.setReg 10 0).setPc 0x102) ∧
    exec (.sw 2 3 124) s = .next { s with mem := s.mem.setWord 0x2FFC 0xFF, pc := 0x102 } := ⟨rfl, rfl⟩

theorem witness_MisalignedAccessFaults :
    let s := testState 0x0001 [(11, 0x2001)] []
    ¬ Aligned (s.reg (CReg.reg 3) + zext32 (0#7)) ∧ ¬ Aligned (s.reg (CReg.reg 3) + zext32 (2#7)) ∧ Aligned 0xFFFFFFFC#32 := by
  decide

/-- The first word past the test map, and one whose last byte alone is unmapped. -/
theorem witness_UnmappedAccessFaults :
    (let s := testState 0x0001 [(11, 0x3000)] []
     let a : Word := s.reg (CReg.reg 3) + zext32 (0#7)
     Aligned a ∧ ¬ AllFour s.memMap.readable a ∧ ¬ AllFour s.memMap.writable a) ∧
    (let m : MemMap := [⟨0x2000, 3, true, true, false⟩]
     Aligned 0x2000#32 ∧ ¬ AllFour m.readable 0x2000#32 ∧ ¬ AllFour m.writable 0x2000#32) := by decide

/-- One executable byte at the end of a writable word. -/
theorem witness_StoreToCodeIsRefused :
    let m : MemMap := [⟨0x2000, 4, true, true, false⟩, ⟨0x2003, 1, false, false, true⟩]
    Aligned 0x2000#32 ∧ AllFour m.writable 0x2000#32 ∧ SomeOfFour m.executable 0x2000#32 := by decide

theorem witness_HintWordsChangeOnlyPc :
    (Fetches (testState 0x507D [] []) 0x507D ∧ (0x507D#16 &&& 0xEF83#16) = 0x4001#16) ∧
    (Fetches (testState 0x8381 [] []) 0x8381 ∧ (0x8381#16 &&& 0xFC7F#16) = 0x8001#16) ∧
    (Fetches (testState 0x8401 [] []) 0x8401 ∧ (0x8401#16 &&& 0xFC7F#16) = 0x8401#16) := by decide

theorem witness_ReservedWordsRaiseIllegalInstruction :
    (Fetches (testState 0x001C [] []) 0x001C ∧ (0x001C#16 &&& 0xFFE3#16) = 0x0000#16) ∧
    (Fetches (testState 0x707D [] []) 0x707D ∧ (0x707D#16 &&& 0xEF83#16) = 0x6001#16) ∧
    Fetches (testState 0x6101 [] []) 0x6101 ∧
    (Fetches (testState 0x97FD [] []) 0x97FD ∧ (0x97FD#16 &&& 0xF803#16) = 0x9001#16) := by decide

theorem witness_UndocumentedWordsAreRefused :
    (Fetches (testState 0x0002 [] []) 0x0002 ∧ (0x0002#16).extractLsb' 0 2 = 0b10#2) ∧
    (Fetches (testState 0xFFFF [] []) 0xFFFF ∧ (0xFFFF#16).extractLsb' 0 2 = 0b11#2) ∧
    (Fetches (testState 0xE000 [] []) 0xE000 ∧ (0xE000#16).extractLsb' 0 2 = 0b00#2 ∧ (0xE000#16).extractLsb' 13 3 = 0b111#3) ∧
    (Fetches (testState 0xA001 [] []) 0xA001 ∧ (0xA001#16).extractLsb' 0 2 = 0b01#2 ∧ (0xA001#16).extractLsb' 13 3 = 0b101#3) ∧
    (Fetches (testState 0x9C01 [] []) 0x9C01 ∧ (0x9C01#16).extractLsb' 13 3 = 0b100#3 ∧ (0x9C01#16).extractLsb' 10 2 = 0b11#2 ∧
      (0x9C01#16).extractLsb' 12 1 = 0b1#1) ∧
    (Fetches (testState 0x8C41 [] []) 0x8C41 ∧ (0x8C41#16).extractLsb' 10 2 = 0b11#2 ∧
      (0x8C41#16).extractLsb' 5 2 = 0b10#2) := by decide

/-- Steps that fault, one for each cause, and steps that are refused, one for each cause, are `test_fetch_faults`,
`test_reservedLuiRd0`, `test_lw_faults`, `test_sw_stops` and `test_undocumented_q0_q1`; this one names the hypothesis. -/
theorem witness_StopsAreThoseOfTheSpec :
    step State.reset = .fault (.instructionAccessFault 0x100) ∧
    step (testState 0xFFFF [] []) = .refused (.undocumented 0xFFFF) := ⟨rfl, rfl⟩

theorem witness_RegisterInstructionsCannotStop :
    Instr.rowClass .nop = .instruction ∧ Instr.rowClass (.hintLiRd0 0) = .hint ∧ (∀ rd rs1 u, Instr.nop ≠ .lw rd rs1 u) ∧
    ∀ rs2 rs1 u, Instr.nop ≠ .sw rs2 rs1 u := by
  refine ⟨rfl, rfl, ?_, ?_⟩ <;> intros <;> exact Instr.noConfusion

/-- An instruction that answers a next state and leaves the registers other than its destination to be looked at. -/
theorem witness_OnlyTheDestinationRegisterChanges :
    exec (.sub 0 1) State.reset = .next ((State.reset.setReg 8 0xFFFFFF00).setPc 0x102) ∧
    Instr.dest (.sub 0 1) = some 8 ∧ Instr.dest (.sub 0 1) ≠ some 9 := ⟨rfl, rfl, by decide⟩

theorem witness_OnlySwWritesMemory_PcAdvancesByTwo :
    exec .nop State.reset = .next (State.reset.setPc 0x102) ∧ (∀ rs2 rs1 u, Instr.nop ≠ .sw rs2 rs1 u) ∧
    ∀ v, Instr.nop ≠ .jal v := by
  refine ⟨rfl, ?_, ?_⟩ <;> intros <;> exact Instr.noConfusion

theorem witness_RunKeepsLaunchParameters :
    RunsTo 1 (testState 0x0001 [] []) ((testState 0x0001 [] []).setPc 0x102) := rfl

/-- A state with an executable byte listed, from which a step goes on. -/
theorem witness_StepKeepsInvariant_ProgramTextStaysFixed :
    (testState 0x0001 [] []).Inv ∧ step (testState 0x0001 [] []) = .next ((testState 0x0001 [] []).setPc 0x102) ∧
    RunsTo 1 (testState 0x0001 [] []) ((testState 0x0001 [] []).setPc 0x102) ∧
    (testState 0x0001 [] []).memMap.executable 0x101 = true := by
  refine ⟨⟨by decide, ?_, by decide, by decide⟩, rfl, rfl, by decide⟩
  intro e he
  exact absurd (he.symm.trans (by decide : (testState 0x0001 [] []).endPc = none)) (Option.some_ne_none e)

theorem witness_PcStaysEven :
    Even32 (testState 0x3FFD [] []).pc ∧
    RunsTo 1 (testState 0x3FFD [] []) (((testState 0x3FFD [] []).setReg 1 0x102).setPc 0xFE) := ⟨by decide, rfl⟩

/-- A store at 0x2000, then loads of the same word and of the next one. -/
theorem witness_LoadAfterStore :
    let s := testState 0xC188 [(10, 0xDEADBEEF), (11, 0x2000)] []
    let t : State := { s with mem := s.mem.setWord 0x2000 0xDEADBEEF, pc := 0x102 }
    s.mem.wf = true ∧ exec (.sw 2 3 0) s = .next t ∧ 0x2000#32 = s.reg (CReg.reg 3) + zext32 (0#7) ∧
    (0x2000#32 = t.reg (CReg.reg 3) + zext32 (0#7) ∧ Aligned 0x2000#32 ∧ AllFour t.memMap.readable 0x2000#32) ∧
    (0x2004#32 = t.reg (CReg.reg 3) + zext32 (4#7) ∧ Aligned 0x2004#32 ∧ AllFour t.memMap.readable 0x2004#32) := by
  exact ⟨by decide, rfl, by decide, by decide, by decide⟩

/-- Two states that agree on pc, memory, map and x9, and on nothing else. -/
theorem witness_ResultDependsOnSourcesOnly :
    let s := testState 0x0001 [(9, 5)] []
    let s' := testState 0x0001 [(9, 5), (10, 6), (31, 7)] []
    exec (.srli 1 1) s = .next ((s.setReg 9 2).setPc 0x102) ∧ s'.pc = s.pc ∧ s'.mem = s.mem ∧ s'.memMap = s.memMap ∧
    (∀ r ∈ Instr.sources (.srli 1 1), s'.reg r = s.reg r) ∧ s' ≠ s := by
  exact ⟨rfl, by decide, by decide, by decide, by decide, by decide⟩

theorem witness_JalToUnfetchableTargetFaultsNext :
    let s := testState 0x2021 [] []
    0x108#32 = s.pc + sext32 (8#12) ∧ s.endPc ≠ some 0x108#32 ∧ s.memMap.executable 0x108#32 = false := by decide

theorem witness_JalToItselfRunsForever : Fetches (testState 0x2001 [] []) 0x2001 := by decide

theorem witness_XorTwiceAndOppositeAdjustmentsRestore : (2 : CReg) ≠ 3 ∧ (496#10 : BitVec 10) ≠ 0x200#10 := by decide

end Sys2Proof.Tests
end

namespace Sys2Proof.Machine

/-! # The registers an instruction writes, and the registers its result depends on (spec/10_state.md, R20 to R23) -/

/-! ## The register frame -/

theorem reg_setReg_of_ne {r rd : Reg} (hne : r ≠ rd) (s : State) (v : Word) : (s.setReg rd v).reg r = s.reg r := by
  rw [reg_setReg, if_neg fun hr => hne hr.1]

/-- An instruction keeps every register other than its destination. -/
theorem exec_keeps_reg_of_ne_dest {i : Instr} {s t : State} {r : Reg} (h : exec i s = .next t) (hr : i.dest ≠ some r) :
    t.reg r = s.reg r := by
  rcases exec_next_cases h with
    ⟨rd, v, hd, -, rfl⟩ | ⟨-, -, rfl⟩ | ⟨imm, rfl, rfl⟩ | ⟨rs2, rs1, u, rfl, -, -, -, rfl⟩
  · have hne : r ≠ rd := fun e => hr (e ▸ hd)
    rw [reg_setPc, reg_setReg_of_ne hne]
  · exact reg_setPc s _ r
  · have hne : r ≠ 1 := fun e => hr (congrArg some e.symm)
    rw [reg_setPc, reg_setReg_of_ne hne]
  · rw [reg_setPc, reg_withMem]

/-- Settles O40: x0 is not stored, and `exec_next_cases` names the one register each instruction can write. -/
theorem onlyTheDestinationRegisterChanges : Obligations.OnlyTheDestinationRegisterChanges := by
  intro i s t h
  exact ⟨reg_zero t, fun r hr => exec_keeps_reg_of_ne_dest h hr⟩

/-! ## Accesses that go through -/

theorem memRead_eq_next {a v : Word} {s : State} :
    memRead a s = .next v ↔ Aligned a ∧ AllFour s.memMap.readable a ∧ v = s.mem.word a := by
  rcases memRead_cases a s with ⟨h1, e⟩ | ⟨-, h2, e⟩ | ⟨h1, h2, e⟩ <;> rw [e]
  · simp [h1]
  · simp [h2]
  · exact ⟨fun h => by cases h; exact ⟨h1, h2, rfl⟩, fun ⟨_, _, hv⟩ => hv ▸ rfl⟩

theorem memWrite_eq_next {a v : Word} {s t : State} :
    memWrite a v s = .next t ↔ Aligned a ∧ AllFour s.memMap.writable a ∧ ¬ SomeOfFour s.memMap.executable a ∧
      t = { s with mem := s.mem.setWord a v } := by
  rcases memWrite_cases a v s with ⟨h1, e⟩ | ⟨-, h2, e⟩ | ⟨-, -, h3, e⟩ | ⟨h1, h2, h3, e⟩ <;> rw [e]
  · simp [h1]
  · simp [h2]
  · simp [h3]
  · exact ⟨fun h => by cases h; exact ⟨h1, h2, h3, rfl⟩, fun ⟨_, _, _, ht⟩ => ht ▸ rfl⟩

/-! ## Independence of the registers that are not sources -/

/-- The two states agree on all an instruction with source registers `rs` may look at. -/
structure AgreeOn (rs : List Reg) (s s' : State) : Prop where
  pc : s'.pc = s.pc
  mem : s'.mem = s.mem
  memMap : s'.memMap = s.memMap
  reg : ∀ r ∈ rs, s'.reg r = s.reg r

/-- The two states agree on all an instruction with destination `d` may change. -/
def SameResult (d : Option Reg) (t t' : State) : Prop :=
  t'.pc = t.pc ∧ t'.mem = t.mem ∧ ∀ r : Reg, d = some r → t'.reg r = t.reg r

section

variable {rs : List Reg} {s s' t : State}

theorem memRead_next_of_agreeOn {a v : Word} (hs : AgreeOn rs s s') (h : memRead a s = .next v) :
    memRead a s' = .next v := by
  rwa [memRead_eq_next, hs.memMap, hs.mem, ← memRead_eq_next]

theorem memWrite_next_of_agreeOn {a v : Word} (hs : AgreeOn rs s s') (h : memWrite a v s = .next t) :
    ∃ t', memWrite a v s' = .next t' ∧ t'.pc = t.pc ∧ t'.mem = t.mem := by
  obtain ⟨ha, hw, hx, rfl⟩ := memWrite_eq_next.1 h
  rw [← hs.memMap] at hw hx
  refine ⟨_, memWrite_eq_next.2 ⟨ha, hw, hx, rfl⟩, hs.pc, ?_⟩
  simp only [hs.mem]

theorem retire_sameResult (hpc : s'.pc = s.pc) (hmem : s'.mem = s.mem) (h : retire s = .next t) :
    ∃ t', retire s' = .next t' ∧ SameResult none t t' := by
  rw [retire_eq] at h
  cases h
  exact ⟨_, retire_eq s', by simp [hpc], by simp [hmem], fun _ => nofun⟩

/-- A destination register holds the value given it, unless it is x0, which reads 0 in both states. -/
theorem setReg_reg_dest_eq (s s' : State) (rd : Reg) (v : Word) : (s'.setReg rd v).reg rd = (s.setReg rd v).reg rd := by
  by_cases h0 : rd = 0
  · subst h0; rfl
  · simp [reg_setReg, h0]

theorem writeBack_sameResult {rd : Reg} {v v' : Word} (hs : AgreeOn rs s s') (hv : v' = v)
    (h : writeBack rd v s = .next t) : ∃ t', writeBack rd v' s' = .next t' ∧ SameResult (some rd) t t' := by
  subst hv
  rw [writeBack_eq] at h
  cases h
  refine ⟨_, writeBack_eq rd v' s', by simp [hs.pc], by simp [hs.mem], ?_⟩
  rintro r ⟨⟩
  simpa using setReg_reg_dest_eq s s' rd v'

theorem execLw_sameResult {rd rs1 : CReg} {u : BitVec 7} (hs : AgreeOn [rs1.reg] s s')
    (h : execLw rd rs1 u s = .next t) : ∃ t', execLw rd rs1 u s' = .next t' ∧ SameResult (some rd.reg) t t' := by
  obtain ⟨v, hread, hwrite⟩ := andThen_eq_next.1 h
  have haddr : dataAddr rs1 u s' = dataAddr rs1 u s := by simp [dataAddr_eq, hs.reg]
  obtain ⟨t', ht', hres⟩ := writeBack_sameResult hs rfl hwrite
  exact ⟨t', andThen_eq_next.2 ⟨v, haddr ▸ memRead_next_of_agreeOn hs hread, ht'⟩, hres⟩

theorem execSw_sameResult {rs2 rs1 : CReg} {u : BitVec 7} (hs : AgreeOn [rs1.reg, rs2.reg] s s')
    (h : execSw rs2 rs1 u s = .next t) : ∃ t', execSw rs2 rs1 u s' = .next t' ∧ SameResult none t t' := by
  obtain ⟨m, hwrite, hretire⟩ := andThen_eq_next.1 h
  have haddr : dataAddr rs1 u s' = dataAddr rs1 u s := by simp [dataAddr_eq, hs.reg]
  have hdata : s'.reg rs2.reg = s.reg rs2.reg := hs.reg _ (by simp)
  obtain ⟨m', hm', hpc, hmem⟩ := memWrite_next_of_agreeOn hs hwrite
  obtain ⟨t', ht', hres⟩ := retire_sameResult hpc hmem hretire
  refine ⟨t', andThen_eq_next.2 ⟨m', ?_, ht'⟩, hres⟩
  rw [haddr, hdata, hm']

theorem execJal_sameResult {imm : BitVec 12} (hs : AgreeOn rs s s') (h : execJal imm s = .next t) :
    ∃ t', execJal imm s' = .next t' ∧ SameResult (some raReg) t t' := by
  cases h
  refine ⟨_, rfl, by simp [hs.pc], by simp [hs.mem], ?_⟩
  rintro r ⟨⟩
  simpa [hs.pc] using setReg_reg_dest_eq s s' raReg (s.pc + 2#32)

/-- Every row of the opcode table: the value written is a function of the sources, and the ends of a step look at nothing else.
The rows without a meaning answer no next state. -/
theorem exec_sameResult {i : Instr} (hs : AgreeOn i.sources s s') (h : exec i s = .next t) :
    ∃ t', exec i s' = .next t' ∧ SameResult i.dest t t' := by
  cases i with
  | lw rd rs1 u => exact execLw_sameResult hs h
  | sw rs2 rs1 u => exact execSw_sameResult hs h
  | jal imm => exact execJal_sameResult hs h
  | li rd imm | lui rd imm => exact writeBack_sameResult hs rfl h
  | addi4spn rd imm | addi16sp imm =>
    have h2 : s'.reg spReg = s.reg spReg := hs.reg _ (List.mem_singleton_self _)
    exact writeBack_sameResult hs (by rw [h2]) h
  | addi rd imm =>
    have h1 : s'.reg rd = s.reg rd := hs.reg _ (List.mem_singleton_self _)
    exact writeBack_sameResult hs (by rw [h1]) h
  | srli rd imm | srai rd imm | andi rd imm =>
    have h1 : s'.reg rd.reg = s.reg rd.reg := hs.reg _ (List.mem_singleton_self _)
    exact writeBack_sameResult hs (by rw [h1]) h
  | sub rd rs2 | xor rd rs2 =>
    have h1 : s'.reg rd.reg = s.reg rd.reg := hs.reg _ List.mem_cons_self
    have h2 : s'.reg rs2.reg = s.reg rs2.reg := hs.reg _ (List.mem_cons_of_mem _ (List.mem_singleton_self _))
    exact writeBack_sameResult hs (by rw [h1, h2]) h
  | nop | hintLiRd0 imm | hintSrliShamt0 rd | hintSraiShamt0 rd => exact retire_sameResult hs.pc hs.mem h
  | _ => cases h

end

/-- Settles O48, from `exec_sameResult` for each row of the opcode table. -/
theorem resultDependsOnSourcesOnly : Obligations.ResultDependsOnSourcesOnly := by
  intro i s s' t h hpc hmem hmap hreg
  exact exec_sameResult ⟨hpc, hmem, hmap, hreg⟩ h

end Sys2Proof.Machine

namespace Sys2Proof

open BitVec

/-! # Decoder, encoder and opcode table agree (spec/30_encoding.md) -/

/-! ## Register fields (R79) -/

theorem rdField_eq_iff {w : InstWord} {r : Reg} : rdField w = r ↔ w.extractLsb' 7 5 = regBits r := by
  rw [rdField, Fin.ext_iff, ← toNat_inj, regBits, toNat_ofNat, Nat.mod_eq_of_lt (show r.val < 2 ^ 5 from r.isLt)]

theorem cregHigh_eq_iff {w : InstWord} {f : CReg} : cregHigh w = f ↔ w.extractLsb' 7 3 = cregBits f := by
  rw [cregHigh, Fin.ext_iff, ← toNat_inj, cregBits, toNat_ofNat, Nat.mod_eq_of_lt (show f.val < 2 ^ 3 from f.isLt)]

theorem cregLow_eq_iff {w : InstWord} {f : CReg} : cregLow w = f ↔ w.extractLsb' 2 3 = cregBits f := by
  rw [cregLow, Fin.ext_iff, ← toNat_inj, cregBits, toNat_ofNat, Nat.mod_eq_of_lt (show f.val < 2 ^ 3 from f.isLt)]

@[simp] theorem regBits_rdField (w : InstWord) : regBits (rdField w) = w.extractLsb' 7 5 :=
  (rdField_eq_iff.1 rfl).symm

@[simp] theorem cregBits_cregHigh (w : InstWord) : cregBits (cregHigh w) = w.extractLsb' 7 3 :=
  (cregHigh_eq_iff.1 rfl).symm

@[simp] theorem cregBits_cregLow (w : InstWord) : cregBits (cregLow w) = w.extractLsb' 2 3 :=
  (cregLow_eq_iff.1 rfl).symm

/-! ## What the decoder answers, by the conditions it tests (R89 to R96) -/

/-- `i` is what the decoder makes of a word with these fields: one constructor for each row. -/
inductive DecodesAs (w : InstWord) : Instr → Prop where
  | addi4spn (hop : opField w = 0b00#2) (hf : funct3 w = 0b000#3) (himm : w.extractLsb' 5 8 ≠ 0#8) :
      DecodesAs w (.addi4spn (cregLow w) (immAddi4spn w))
  | reservedAddi4spnImm0 (hop : opField w = 0b00#2) (hf : funct3 w = 0b000#3) (himm : w.extractLsb' 5 8 = 0#8) :
      DecodesAs w (.reservedAddi4spnImm0 (cregLow w))
  | lw (hop : opField w = 0b00#2) (hf : funct3 w = 0b010#3) : DecodesAs w (.lw (cregLow w) (cregHigh w) (immMem w))
  | sw (hop : opField w = 0b00#2) (hf : funct3 w = 0b110#3) : DecodesAs w (.sw (cregLow w) (cregHigh w) (immMem w))
  | nop (hop : opField w = 0b01#2) (hf : funct3 w = 0b000#3) (hrd : rdField w = 0) (himm : imm6 w = 0#6) :
      DecodesAs w .nop
  | addi (hop : opField w = 0b01#2) (hf : funct3 w = 0b000#3) (hnop : ¬ (rdField w = 0 ∧ imm6 w = 0#6)) :
      DecodesAs w (.addi (rdField w) (imm6 w))
  | jal (hop : opField w = 0b01#2) (hf : funct3 w = 0b001#3) : DecodesAs w (.jal (immJal w))
  | li (hop : opField w = 0b01#2) (hf : funct3 w = 0b010#3) (hrd : rdField w ≠ 0) :
      DecodesAs w (.li (rdField w) (imm6 w))
  | hintLiRd0 (hop : opField w = 0b01#2) (hf : funct3 w = 0b010#3) (hrd : rdField w = 0) :
      DecodesAs w (.hintLiRd0 (imm6 w))
  | lui (hop : opField w = 0b01#2) (hf : funct3 w = 0b011#3) (hrd0 : rdField w ≠ 0) (hrd2 : rdField w ≠ 2) :
      DecodesAs w (.lui (rdField w) (imm6 w))
  | reservedLuiRd0 (hop : opField w = 0b01#2) (hf : funct3 w = 0b011#3) (hrd : rdField w = 0) :
      DecodesAs w (.reservedLuiRd0 (imm6 w))
  | addi16sp (hop : opField w = 0b01#2) (hf : funct3 w = 0b011#3) (hrd : rdField w = 2) (himm : imm6 w ≠ 0#6) :
      DecodesAs w (.addi16sp (immAddi16sp w))
  | reservedAddi16spImm0 (hop : opField w = 0b01#2) (hf : funct3 w = 0b011#3) (hrd : rdField w = 2)
      (himm : imm6 w = 0#6) : DecodesAs w .reservedAddi16spImm0
  | srli (hop : opField w = 0b01#2) (hf : funct3 w = 0b100#3) (hcb : funct2Cb w = 0b00#2) (h12 : bit12 w = 0#1)
      (hsh : shamtField w ≠ 0#5) : DecodesAs w (.srli (cregHigh w) (shamtField w))
  | hintSrliShamt0 (hop : opField w = 0b01#2) (hf : funct3 w = 0b100#3) (hcb : funct2Cb w = 0b00#2)
      (h12 : bit12 w = 0#1) (hsh : shamtField w = 0#5) : DecodesAs w (.hintSrliShamt0 (cregHigh w))
  | srai (hop : opField w = 0b01#2) (hf : funct3 w = 0b100#3) (hcb : funct2Cb w = 0b01#2) (h12 : bit12 w = 0#1)
      (hsh : shamtField w ≠ 0#5) : DecodesAs w (.srai (cregHigh w) (shamtField w))
  | hintSraiShamt0 (hop : opField w = 0b01#2) (hf : funct3 w = 0b100#3) (hcb : funct2Cb w = 0b01#2)
      (h12 : bit12 w = 0#1) (hsh : shamtField w = 0#5) : DecodesAs w (.hintSraiShamt0 (cregHigh w))
  | reservedShiftShamt5 (k : ShiftKind) (hop : opField w = 0b01#2) (hf : funct3 w = 0b100#3)
      (hcb : funct2Cb w = k.bits) (h12 : bit12 w = 1#1) :
      DecodesAs w (.reservedShiftShamt5 k (cregHigh w) (shamtField w))
  | andi (hop : opField w = 0b01#2) (hf : funct3 w = 0b100#3) (hcb : funct2Cb w = 0b10#2) :
      DecodesAs w (.andi (cregHigh w) (imm6 w))
  | sub (hop : opField w = 0b01#2) (hf : funct3 w = 0b100#3) (hcb : funct2Cb w = 0b11#2) (h12 : bit12 w = 0#1)
      (hca : funct2Ca w = 0b00#2) : DecodesAs w (.sub (cregHigh w) (cregLow w))
  | xor (hop : opField w = 0b01#2) (hf : funct3 w = 0b100#3) (hcb : funct2Cb w = 0b11#2) (h12 : bit12 w = 0#1)
      (hca : funct2Ca w = 0b01#2) : DecodesAs w (.xor (cregHigh w) (cregLow w))
  | undocQ0F001 (hop : opField w = 0b00#2) (hf : funct3 w = 0b001#3) : DecodesAs w (.undocQ0F001 (w.extractLsb' 2 11))
  | undocQ0F011 (hop : opField w = 0b00#2) (hf : funct3 w = 0b011#3) : DecodesAs w (.undocQ0F011 (w.extractLsb' 2 11))
  | undocQ0F100 (hop : opField w = 0b00#2) (hf : funct3 w = 0b100#3) : DecodesAs w (.undocQ0F100 (w.extractLsb' 2 11))
  | undocQ0F101 (hop : opField w = 0b00#2) (hf : funct3 w = 0b101#3) : DecodesAs w (.undocQ0F101 (w.extractLsb' 2 11))
  | undocQ0F111 (hop : opField w = 0b00#2) (hf : funct3 w = 0b111#3) : DecodesAs w (.undocQ0F111 (w.extractLsb' 2 11))
  | undocQ1F101 (hop : opField w = 0b01#2) (hf : funct3 w = 0b101#3) : DecodesAs w (.undocQ1F101 (w.extractLsb' 2 11))
  | undocQ1F110 (hop : opField w = 0b01#2) (hf : funct3 w = 0b110#3) : DecodesAs w (.undocQ1F110 (w.extractLsb' 2 11))
  | undocQ1F111 (hop : opField w = 0b01#2) (hf : funct3 w = 0b111#3) : DecodesAs w (.undocQ1F111 (w.extractLsb' 2 11))
  | undocQ1Ca1x (hop : opField w = 0b01#2) (hf : funct3 w = 0b100#3) (hcb : funct2Cb w = 0b11#2) (h12 : bit12 w = 0#1)
      (h6 : w.extractLsb' 6 1 = 1#1) : DecodesAs w (.undocQ1Ca1x (w.extractLsb' 7 3) (w.extractLsb' 2 4))
  | undocQ1F100111 (hop : opField w = 0b01#2) (hf : funct3 w = 0b100#3) (hcb : funct2Cb w = 0b11#2)
      (h12 : bit12 w = 1#1) : DecodesAs w (.undocQ1F100111 (w.extractLsb' 2 8))
  | undocQ2 (hop : opField w = 0b10#2) : DecodesAs w (.undocQ2 (w.extractLsb' 2 14))
  | undocOp11 (hop : opField w = 0b11#2) : DecodesAs w (.undocOp11 (w.extractLsb' 2 14))

/-- The value of a 3-bit field that has none of the values tested before it. -/
theorem eq_seven_of_ne {f : BitVec 3} (h0 : f ≠ 0b000#3) (h1 : f ≠ 0b001#3) (h2 : f ≠ 0b010#3) (h3 : f ≠ 0b011#3)
    (h4 : f ≠ 0b100#3) (h5 : f ≠ 0b101#3) (h6 : f ≠ 0b110#3) : f = 0b111#3 := by
  bv_omega

/-- The same of a 2-bit field. -/
theorem eq_three_of_ne : ∀ {f : BitVec 2}, ¬ f = 0b00#2 → ¬ f = 0b01#2 → ¬ f = 0b10#2 → f = 0b11#2 := by decide

theorem eq_zero_of_ne_one : ∀ {b : BitVec 1}, ¬ b = 1#1 → b = 0#1 := by decide

theorem funct2Ca_eq_append (w : InstWord) : funct2Ca w = w.extractLsb' 6 1 ++ w.extractLsb' 5 1 :=
  (extractLsb'_append_extractLsb'_eq_extractLsb' (x := w) (start₁ := 5) (len₁ := 1) rfl).symm

/-- `inst[6:5]` in {10, 11} is `inst[6] = 1`. -/
theorem bit6_iff {w : InstWord} : w.extractLsb' 6 1 = 1#1 ↔ funct2Ca w ≠ 0b00#2 ∧ funct2Ca w ≠ 0b01#2 := by
  rw [funct2Ca_eq_append]
  generalize w.extractLsb' 6 1 = hi
  generalize w.extractLsb' 5 1 = lo
  revert hi lo
  decide

theorem decodesAs_decodeQ0 {w : InstWord} (hop : opField w = 0b00#2) : DecodesAs w (decodeQ0 w) := by
  unfold decodeQ0
  split_ifs with h0 himm h1 h2 h3 h4 h5 h6
  · exact .reservedAddi4spnImm0 hop h0 himm
  · exact .addi4spn hop h0 himm
  · exact .undocQ0F001 hop h1
  · exact .lw hop h2
  · exact .undocQ0F011 hop h3
  · exact .undocQ0F100 hop h4
  · exact .undocQ0F101 hop h5
  · exact .sw hop h6
  · exact .undocQ0F111 hop (eq_seven_of_ne h0 h1 h2 h3 h4 h5 h6)

theorem decodesAs_decodeQ1Alu {w : InstWord} (hop : opField w = 0b01#2) (hf : funct3 w = 0b100#3) :
    DecodesAs w (decodeQ1Alu w) := by
  unfold decodeQ1Alu
  split_ifs with c0 b0 s0 c1 b1 s1 c2 b2 a0 a1
  · exact .reservedShiftShamt5 .srli hop hf c0 b0
  · exact .hintSrliShamt0 hop hf c0 (eq_zero_of_ne_one b0) s0
  · exact .srli hop hf c0 (eq_zero_of_ne_one b0) s0
  · exact .reservedShiftShamt5 .srai hop hf c1 b1
  · exact .hintSraiShamt0 hop hf c1 (eq_zero_of_ne_one b1) s1
  · exact .srai hop hf c1 (eq_zero_of_ne_one b1) s1
  · exact .andi hop hf c2
  · exact .undocQ1F100111 hop hf (eq_three_of_ne c0 c1 c2) b2
  · exact .sub hop hf (eq_three_of_ne c0 c1 c2) (eq_zero_of_ne_one b2) a0
  · exact .xor hop hf (eq_three_of_ne c0 c1 c2) (eq_zero_of_ne_one b2) a1
  · exact .undocQ1Ca1x hop hf (eq_three_of_ne c0 c1 c2) (eq_zero_of_ne_one b2) (bit6_iff.2 ⟨a0, a1⟩)

theorem decodesAs_decodeQ1 {w : InstWord} (hop : opField w = 0b01#2) : DecodesAs w (decodeQ1 w) := by
  unfold decodeQ1
  split_ifs with h0 hnop h1 h2 hrd h3 hrd2 himm hrd0 h4 h5 h6
  · exact .nop hop h0 hnop.1 hnop.2
  · exact .addi hop h0 hnop
  · exact .jal hop h1
  · exact .hintLiRd0 hop h2 hrd
  · exact .li hop h2 hrd
  · exact .reservedAddi16spImm0 hop h3 hrd2 himm
  · exact .addi16sp hop h3 hrd2 himm
  · exact .reservedLuiRd0 hop h3 hrd0
  · exact .lui hop h3 hrd0 hrd2
  · exact decodesAs_decodeQ1Alu hop h4
  · exact .undocQ1F101 hop h5
  · exact .undocQ1F110 hop h6
  · exact .undocQ1F111 hop (eq_seven_of_ne h0 h1 h2 h3 h4 h5 h6)

theorem decodesAs_decode (w : InstWord) : DecodesAs w (decode w) := by
  unfold decode
  split_ifs with h0 h1 h2
  · exact decodesAs_decodeQ0 h0
  · exact decodesAs_decodeQ1 h1
  · exact .undocQ2 h2
  · exact .undocOp11 (eq_three_of_ne h0 h1 h2)

/-- The decoder answers nothing else. -/
theorem DecodesAs.decode_eq {w : InstWord} {i : Instr} (h : DecodesAs w i) : decode w = i := by
  cases h with
  | reservedShiftShamt5 k hop hf hcb h12 =>
    cases k <;> simp only [ShiftKind.bits] at hcb <;> simp [decode, decodeQ1, decodeQ1Alu, hop, hf, hcb, h12]
  | undocQ1Ca1x hop hf hcb h12 h6 =>
    have hca := bit6_iff.1 h6
    simp [decode, decodeQ1, decodeQ1Alu, hop, hf, hcb, h12, hca]
  | _ => simp [decode, decodeQ0, decodeQ1, decodeQ1Alu, *]

/-! ## Encoding what a word decodes to (R88)

A word is its fields side by side, one lemma for each way the encoder cuts them. -/

section

variable (w : InstWord)

/-- CIW with the immediate of C.ADDI4SPN (R72, R80). -/
theorem layout_addi4spn : funct3 w ++ (immAddi4spn w).extractLsb' 4 2 ++ (immAddi4spn w).extractLsb' 6 4
    ++ (immAddi4spn w).extractLsb' 2 1 ++ (immAddi4spn w).extractLsb' 3 1 ++ cregBits (cregLow w) ++ opField w = w := by
  simp (disch := decide) only [funct3, opField, immAddi4spn, cregBits_cregLow, extractLsb'_append_eq_of_add_le,
    extractLsb'_append_eq_of_le, Nat.reduceSub, extractLsb'_eq_self, extractLsb'_append_extractLsb'_eq_extractLsb']

/-- CIW with the immediate in one piece (R72). -/
theorem layout_ciw : funct3 w ++ w.extractLsb' 5 8 ++ cregBits (cregLow w) ++ opField w = w := by
  simp (disch := decide) only [funct3, opField, cregBits_cregLow, extractLsb'_eq_self,
    extractLsb'_append_extractLsb'_eq_extractLsb']

/-- CL and CS (R73, R74, R81). -/
theorem layout_mem : funct3 w ++ (immMem w).extractLsb' 3 3 ++ cregBits (cregHigh w) ++ (immMem w).extractLsb' 2 1
    ++ (immMem w).extractLsb' 6 1 ++ cregBits (cregLow w) ++ opField w = w := by
  simp (disch := decide) only [funct3, opField, immMem, cregBits_cregLow, cregBits_cregHigh,
    extractLsb'_append_eq_of_add_le, extractLsb'_append_eq_of_le, Nat.reduceSub, extractLsb'_eq_self,
    extractLsb'_append_extractLsb'_eq_extractLsb']

/-- CI (R75, R82, R84). -/
theorem layout_ci : funct3 w ++ (imm6 w).extractLsb' 5 1 ++ regBits (rdField w) ++ (imm6 w).extractLsb' 0 5
    ++ opField w = w := by
  simp (disch := decide) only [funct3, opField, imm6, regBits_rdField, extractLsb'_append_eq_of_add_le,
    extractLsb'_append_eq_of_le, Nat.reduceSub, extractLsb'_eq_self, extractLsb'_append_extractLsb'_eq_extractLsb']

/-- CI with the immediate of C.ADDI16SP (R75, R85). -/
theorem layout_addi16sp : funct3 w ++ (immAddi16sp w).extractLsb' 9 1 ++ regBits (rdField w)
    ++ (immAddi16sp w).extractLsb' 4 1 ++ (immAddi16sp w).extractLsb' 6 1 ++ (immAddi16sp w).extractLsb' 7 2
    ++ (immAddi16sp w).extractLsb' 5 1 ++ opField w = w := by
  simp (disch := decide) only [funct3, opField, immAddi16sp, regBits_rdField, extractLsb'_append_eq_of_add_le,
    extractLsb'_append_eq_of_le, Nat.reduceSub, extractLsb'_eq_self, extractLsb'_append_extractLsb'_eq_extractLsb']

/-- CJ (R76, R83). -/
theorem layout_jal : funct3 w ++ (immJal w).extractLsb' 11 1 ++ (immJal w).extractLsb' 4 1 ++ (immJal w).extractLsb' 8 2
    ++ (immJal w).extractLsb' 10 1 ++ (immJal w).extractLsb' 6 1 ++ (immJal w).extractLsb' 7 1
    ++ (immJal w).extractLsb' 1 3 ++ (immJal w).extractLsb' 5 1 ++ opField w = w := by
  simp (disch := decide) only [funct3, opField, immJal, extractLsb'_append_eq_of_add_le,
    extractLsb'_append_eq_of_le, Nat.reduceSub, extractLsb'_eq_self, extractLsb'_append_extractLsb'_eq_extractLsb']

/-- CB of a shift (R77, R86). -/
theorem layout_shift : funct3 w ++ bit12 w ++ funct2Cb w ++ cregBits (cregHigh w) ++ shamtField w ++ opField w = w := by
  simp (disch := decide) only [funct3, bit12, funct2Cb, shamtField, opField, cregBits_cregHigh, extractLsb'_eq_self,
    extractLsb'_append_extractLsb'_eq_extractLsb']

/-- CB of C.ANDI (R77, R82). -/
theorem layout_andi : funct3 w ++ (imm6 w).extractLsb' 5 1 ++ funct2Cb w ++ cregBits (cregHigh w)
    ++ (imm6 w).extractLsb' 0 5 ++ opField w = w := by
  simp (disch := decide) only [funct3, imm6, funct2Cb, opField, cregBits_cregHigh, extractLsb'_append_eq_of_add_le,
    extractLsb'_append_eq_of_le, Nat.reduceSub, extractLsb'_eq_self, extractLsb'_append_extractLsb'_eq_extractLsb']

/-- CA (R78). -/
theorem layout_ca : funct3 w ++ bit12 w ++ funct2Cb w ++ cregBits (cregHigh w) ++ funct2Ca w ++ cregBits (cregLow w)
    ++ opField w = w := by
  simp (disch := decide) only [funct3, bit12, funct2Cb, funct2Ca, opField, cregBits_cregHigh, cregBits_cregLow,
    extractLsb'_eq_self, extractLsb'_append_extractLsb'_eq_extractLsb']

/-- CA with `inst[6]` by itself. -/
theorem layout_ca1x : funct3 w ++ bit12 w ++ funct2Cb w ++ w.extractLsb' 7 3 ++ w.extractLsb' 6 1 ++ w.extractLsb' 2 4
    ++ opField w = w := by
  simp (disch := decide) only [funct3, bit12, funct2Cb, opField, extractLsb'_eq_self,
    extractLsb'_append_extractLsb'_eq_extractLsb']

/-- CA with `inst[9:2]` in one piece. -/
theorem layout_bits8 : funct3 w ++ bit12 w ++ funct2Cb w ++ w.extractLsb' 2 8 ++ opField w = w := by
  simp (disch := decide) only [funct3, bit12, funct2Cb, opField, extractLsb'_eq_self,
    extractLsb'_append_extractLsb'_eq_extractLsb']

/-- `inst[12:2]` in one piece. -/
theorem layout_bits11 : funct3 w ++ w.extractLsb' 2 11 ++ opField w = w := by
  simp (disch := decide) only [funct3, opField, extractLsb'_eq_self, extractLsb'_append_extractLsb'_eq_extractLsb']

/-- `inst[15:2]` in one piece. -/
theorem layout_bits14 : w.extractLsb' 2 14 ++ opField w = w := by
  simp (disch := decide) only [opField, extractLsb'_eq_self, extractLsb'_append_extractLsb'_eq_extractLsb']

end

/-- Each row: the word is the sequence of its fields, and the conditions give the fixed ones their values. -/
theorem DecodesAs.encode_eq {w : InstWord} {i : Instr} (h : DecodesAs w i) : encode i = w := by
  cases h with
  | addi4spn hop hf => simpa only [encode, hop, hf] using layout_addi4spn w
  | reservedAddi4spnImm0 hop hf himm => simpa only [encode, hop, hf, himm] using layout_ciw w
  | lw hop hf | sw hop hf => simpa only [encode, hop, hf] using layout_mem w
  | nop hop hf hrd himm | reservedAddi16spImm0 hop hf hrd himm =>
    have h := layout_ci w
    rw [hop, hf, hrd, himm] at h
    exact h
  | addi hop hf | li hop hf | lui hop hf => simpa only [encode, hop, hf] using layout_ci w
  | hintLiRd0 hop hf hrd | reservedLuiRd0 hop hf hrd =>
    have h := layout_ci w
    rw [hop, hf, hrd] at h
    exact h
  | jal hop hf => simpa only [encode, hop, hf] using layout_jal w
  | addi16sp hop hf hrd =>
    have h := layout_addi16sp w
    rw [hop, hf, hrd] at h
    exact h
  | srli hop hf hcb h12 | srai hop hf hcb h12 => simpa only [encode, hop, hf, hcb, h12] using layout_shift w
  | hintSrliShamt0 hop hf hcb h12 hsh | hintSraiShamt0 hop hf hcb h12 hsh =>
    simpa only [encode, hop, hf, hcb, h12, hsh] using layout_shift w
  | reservedShiftShamt5 k hop hf hcb h12 => simpa only [encode, hop, hf, hcb, h12] using layout_shift w
  | andi hop hf hcb => simpa only [encode, hop, hf, hcb] using layout_andi w
  | sub hop hf hcb h12 hca | xor hop hf hcb h12 hca =>
    have h := layout_ca w
    rw [hop, hf, hcb, h12, hca] at h
    exact h
  | undocQ1Ca1x hop hf hcb h12 h6 =>
    have h := layout_ca1x w
    rw [hop, hf, hcb, h12, h6] at h
    exact h
  | undocQ1F100111 hop hf hcb h12 =>
    have h := layout_bits8 w
    rw [hop, hf, hcb, h12] at h
    exact h
  | undocQ0F001 hop hf | undocQ0F011 hop hf | undocQ0F100 hop hf | undocQ0F101 hop hf | undocQ0F111 hop hf
  | undocQ1F101 hop hf | undocQ1F110 hop hf | undocQ1F111 hop hf =>
    simpa only [encode, hop, hf] using layout_bits11 w
  | undocQ2 hop | undocOp11 hop => simpa only [encode, hop] using layout_bits14 w

/-- Settles O7: each row of the decoder keeps the whole word. -/
theorem encodeOfDecode : Obligations.EncodeOfDecode :=
  fun w => (decodesAs_decode w).encode_eq

/-! ## Operands a word decodes to (R15, R80 to R86) -/

theorem append_eq_zero_iff {m n : Nat} {a : BitVec m} {b : BitVec n} : a ++ b = 0#(m + n) ↔ a = 0#m ∧ b = 0#n := by
  constructor
  · intro h
    have ha := congrArg (extractLsb' n m) h
    have hb := congrArg (extractLsb' 0 n) h
    rw [extractLsb'_append_eq_left, extractLsb'_zero] at ha
    rw [extractLsb'_append_eq_right, extractLsb'_zero] at hb
    exact ⟨ha, hb⟩
  · rintro ⟨rfl, rfl⟩
    exact zero_append_zero

/-- R80, R110: the immediate is zero exactly if `inst[12:5]` is. -/
theorem immAddi4spn_eq_zero_iff {w : InstWord} : immAddi4spn w = 0#10 ↔ w.extractLsb' 5 8 = 0#8 := by
  have hfield : w.extractLsb' 5 8 =
      w.extractLsb' 11 2 ++ w.extractLsb' 7 4 ++ w.extractLsb' 6 1 ++ w.extractLsb' 5 1 := by
    simp (disch := decide) only [extractLsb'_append_extractLsb'_eq_extractLsb']
  rw [hfield, immAddi4spn]
  iterate 7 rw [append_eq_zero_iff]
  tauto

/-- R85, R127: the immediate is zero exactly if `inst[12]` and `inst[6:2]` are. -/
theorem immAddi16sp_eq_zero_iff {w : InstWord} : immAddi16sp w = 0#10 ↔ imm6 w = 0#6 := by
  have hfield : imm6 w = w.extractLsb' 12 1 ++
      (w.extractLsb' 6 1 ++ w.extractLsb' 5 1 ++ w.extractLsb' 3 2 ++ w.extractLsb' 2 1) := by
    simp (disch := decide) only [imm6, extractLsb'_append_extractLsb'_eq_extractLsb']
  rw [hfield, immAddi16sp]
  iterate 9 rw [append_eq_zero_iff]
  tauto

theorem immAddi4spn_low (w : InstWord) : (immAddi4spn w).extractLsb' 0 2 = 0#2 := extractLsb'_append_eq_right

theorem immMem_low (w : InstWord) : (immMem w).extractLsb' 0 2 = 0#2 := extractLsb'_append_eq_right

theorem immJal_low (w : InstWord) : (immJal w).extractLsb' 0 1 = 0#1 := extractLsb'_append_eq_right

theorem immAddi16sp_low (w : InstWord) : (immAddi16sp w).extractLsb' 0 4 = 0#4 := extractLsb'_append_eq_right

theorem DecodesAs.wf {w : InstWord} {i : Instr} (h : DecodesAs w i) : i.wf = true := by
  cases h with
  | addi4spn hop hf himm =>
    have hne : immAddi4spn w ≠ 0#10 := fun h0 => himm (immAddi4spn_eq_zero_iff.1 h0)
    simp [Instr.wf, hne, immAddi4spn_low]
  | lw hop hf | sw hop hf => simp [Instr.wf, immMem_low]
  | addi hop hf hnop => simpa [Instr.wf, ← imp_iff_not_or] using hnop
  | jal hop hf => simp [Instr.wf, immJal_low]
  | li hop hf hrd => simp [Instr.wf, hrd]
  | lui hop hf hrd0 hrd2 => simp [Instr.wf, hrd0, hrd2]
  | addi16sp hop hf hrd himm =>
    have hne : immAddi16sp w ≠ 0#10 := fun h0 => himm (immAddi16sp_eq_zero_iff.1 h0)
    simp [Instr.wf, hne, immAddi16sp_low]
  | srli hop hf hcb h12 hsh | srai hop hf hcb h12 hsh => simp [Instr.wf, hsh]
  | _ => rfl

/-- Settles O8: the conditions on the way to each row are the constraints of its operands. -/
theorem decodeYieldsWellFormed : Obligations.DecodeYieldsWellFormed :=
  fun w => (decodesAs_decode w).wf

/-! ## The opcode table (R90 to R96) -/

theorem OpcodeRow.admits_iff {r : OpcodeRow} {w : InstWord} :
    r.admits w = true ↔ w &&& r.mask = r.pattern ∧ ∀ e ∈ r.exclude, w &&& e.1 ≠ e.2 := by
  simp [OpcodeRow.admits]

/-- A field that a mask covers is that of the pattern. -/
theorem field_eq_of_masked {w m p : InstWord} (h : w &&& m = p) (start len : Nat)
    (hm : m.extractLsb' start len = allOnes len) : w.extractLsb' start len = p.extractLsb' start len := by
  rw [← h, extractLsb'_and, hm, and_allOnes]

/-- Every instruction's word matches its row. -/
theorem encode_matches_row (i : Instr) : Laws.EncodesItsRow.Statement i := by
  cases i with
  | addi4spn => exact Laws.EncodesItsRow.addi4spn _ _
  | reservedAddi4spnImm0 => exact Laws.EncodesItsRow.reservedAddi4spnImm0 _
  | lw => exact Laws.EncodesItsRow.lw _ _ _
  | sw => exact Laws.EncodesItsRow.sw _ _ _
  | nop => exact Laws.EncodesItsRow.nop
  | addi => exact Laws.EncodesItsRow.addi _ _
  | jal => exact Laws.EncodesItsRow.jal _
  | li => exact Laws.EncodesItsRow.li _ _
  | hintLiRd0 => exact Laws.EncodesItsRow.hintLiRd0 _
  | lui => exact Laws.EncodesItsRow.lui _ _
  | reservedLuiRd0 => exact Laws.EncodesItsRow.reservedLuiRd0 _
  | addi16sp => exact Laws.EncodesItsRow.addi16sp _
  | reservedAddi16spImm0 => exact Laws.EncodesItsRow.reservedAddi16spImm0
  | srli => exact Laws.EncodesItsRow.srli _ _
  | hintSrliShamt0 => exact Laws.EncodesItsRow.hintSrliShamt0 _
  | srai => exact Laws.EncodesItsRow.srai _ _
  | hintSraiShamt0 => exact Laws.EncodesItsRow.hintSraiShamt0 _
  | reservedShiftShamt5 => exact Laws.EncodesItsRow.reservedShiftShamt5 _ _ _
  | andi => exact Laws.EncodesItsRow.andi _ _
  | sub => exact Laws.EncodesItsRow.sub _ _
  | xor => exact Laws.EncodesItsRow.xor _ _
  | undocQ0F001 => exact Laws.EncodesItsRow.undocQ0F001 _
  | undocQ0F011 => exact Laws.EncodesItsRow.undocQ0F011 _
  | undocQ0F100 => exact Laws.EncodesItsRow.undocQ0F100 _
  | undocQ0F101 => exact Laws.EncodesItsRow.undocQ0F101 _
  | undocQ0F111 => exact Laws.EncodesItsRow.undocQ0F111 _
  | undocQ1F101 => exact Laws.EncodesItsRow.undocQ1F101 _
  | undocQ1F110 => exact Laws.EncodesItsRow.undocQ1F110 _
  | undocQ1F111 => exact Laws.EncodesItsRow.undocQ1F111 _
  | undocQ1Ca1x => exact Laws.EncodesItsRow.undocQ1Ca1x _ _
  | undocQ1F100111 => exact Laws.EncodesItsRow.undocQ1F100111 _
  | undocQ2 => exact Laws.EncodesItsRow.undocQ2 _
  | undocOp11 => exact Laws.EncodesItsRow.undocOp11 _

/-! ### Rows are disjoint -/

/-- One of the row's exclusions takes out every word of the other row. -/
def OpcodeRow.excludesRow (a b : OpcodeRow) : Bool :=
  a.exclude.any fun e => b.mask &&& e.1 == e.1 && b.pattern &&& e.1 == e.2

theorem OpcodeRow.not_admits_of_excludesRow {a b : OpcodeRow} (hab : a.excludesRow b = true) {w : InstWord}
    (ha : a.admits w = true) : ¬ b.admits w = true := by
  intro hb
  obtain ⟨e, hmem, he⟩ := List.any_eq_true.1 hab
  obtain ⟨hmask, hpattern⟩ : b.mask &&& e.1 = e.1 ∧ b.pattern &&& e.1 = e.2 := by simpa using he
  have hexcluded : w &&& e.1 = e.2 :=
    calc w &&& e.1 = (w &&& b.mask) &&& e.1 := by rw [BitVec.and_assoc, hmask]
      _ = e.2 := by rw [(admits_iff.1 hb).1, hpattern]
  exact (admits_iff.1 ha).2 e hmem hexcluded

/-- The rows differ on a bit that both fix. -/
def OpcodeRow.differs (a b : OpcodeRow) : Bool := a.pattern &&& b.mask != b.pattern &&& a.mask

theorem OpcodeRow.not_admits_of_differs {a b : OpcodeRow} (hab : a.differs b = true) {w : InstWord}
    (ha : a.admits w = true) : ¬ b.admits w = true := by
  intro hb
  have hne : a.pattern &&& b.mask ≠ b.pattern &&& a.mask := by simpa [differs] using hab
  rw [← (admits_iff.1 ha).1, ← (admits_iff.1 hb).1] at hne
  exact hne (by rw [BitVec.and_assoc, BitVec.and_assoc, BitVec.and_comm a.mask])

/-- Each two rows of the table are disjoint, by a fixed bit or by an exclusion of the earlier or the later one. -/
def OpcodeRow.apart (a b : OpcodeRow) : Bool := a.differs b || a.excludesRow b || b.excludesRow a

theorem OpcodeRow.not_admits_of_apart {a b : OpcodeRow} (hab : a.apart b = true) {w : InstWord}
    (ha : a.admits w = true) : ¬ b.admits w = true := by
  rw [apart, Bool.or_eq_true, Bool.or_eq_true] at hab
  rcases hab with (hab | hab) | hab
  · exact not_admits_of_differs hab ha
  · exact not_admits_of_excludesRow hab ha
  · exact fun hb => not_admits_of_excludesRow hab hb ha

theorem opcodeTable_apart : opcodeTable.Pairwise fun a b => a.apart b = true := by decide

/-- No word belongs to two rows. -/
theorem row_unique {j k : Nat} {a b : OpcodeRow} (ha : opcodeTable[j]? = some a) (hb : opcodeTable[k]? = some b)
    {w : InstWord} (hwa : a.admits w = true) (hwb : b.admits w = true) : j = k := by
  obtain ⟨hj, rfl⟩ := List.getElem?_eq_some_iff.1 ha
  obtain ⟨hk, rfl⟩ := List.getElem?_eq_some_iff.1 hb
  have hapart := List.pairwise_iff_getElem.1 opcodeTable_apart
  rcases Nat.lt_trichotomy j k with hlt | heq | hlt
  · exact absurd hwb (OpcodeRow.not_admits_of_apart (hapart j k hj hk hlt) hwa)
  · exact heq
  · exact absurd hwa (OpcodeRow.not_admits_of_apart (hapart k j hk hj hlt) hwb)

/-! ### A word belongs to the row it decodes to -/

/-- What a row leaves to another row does not decode to it: a condition on the way there rules it out. -/
theorem DecodesAs.not_excluded {w : InstWord} {i : Instr} (h : DecodesAs w i) {r : OpcodeRow}
    (hr : opcodeTable[i.row]? = some r) : ∀ e ∈ r.exclude, w &&& e.1 ≠ e.2 := by
  cases h <;> cases hr
  case addi4spn hop hf himm => exact List.forall_mem_singleton.2 fun he => himm (field_eq_of_masked he 5 8 rfl)
  case addi hop hf hnop =>
    refine List.forall_mem_singleton.2 fun he => hnop ?_
    exact ⟨rdField_eq_iff.2 (field_eq_of_masked he 7 5 rfl), by
      rw [imm6, field_eq_of_masked he 12 1 rfl, field_eq_of_masked he 2 5 rfl]; rfl⟩
  case li hop hf hrd =>
    exact List.forall_mem_singleton.2 fun he => hrd (rdField_eq_iff.2 (field_eq_of_masked he 7 5 rfl))
  case lui hop hf hrd0 hrd2 =>
    exact List.forall_mem_cons.2 ⟨fun he => hrd0 (rdField_eq_iff.2 (field_eq_of_masked he 7 5 rfl)),
      List.forall_mem_singleton.2 fun he => hrd2 (rdField_eq_iff.2 (field_eq_of_masked he 7 5 rfl))⟩
  case addi16sp hop hf hrd himm =>
    refine List.forall_mem_singleton.2 fun he => himm ?_
    rw [imm6, field_eq_of_masked he 12 1 rfl, field_eq_of_masked he 2 5 rfl]; rfl
  case srli hop hf hcb h12 hsh => exact List.forall_mem_singleton.2 fun he => hsh (field_eq_of_masked he 2 5 rfl)
  case srai hop hf hcb h12 hsh => exact List.forall_mem_singleton.2 fun he => hsh (field_eq_of_masked he 2 5 rfl)
  all_goals exact List.forall_mem_nil _

/-- A word belongs to the row it decodes to. -/
theorem admits_of_row {w : InstWord} {r : OpcodeRow} (hr : opcodeTable[(decode w).row]? = some r) :
    r.admits w = true := by
  have hw := decodesAs_decode w
  have hmatch := encode_matches_row (decode w) r hr
  rw [hw.encode_eq] at hmatch
  exact OpcodeRow.admits_iff.2 ⟨hmatch, hw.not_excluded hr⟩

theorem row_lt_length (i : Instr) : i.row < opcodeTable.length := by
  cases i <;> exact Nat.le_of_ble_eq_true rfl

/-- Settles O9: a word belongs to the row it decodes to, and to one row at most. -/
theorem opcodeTableIsPartition : Obligations.OpcodeTableIsPartition := by
  intro w k r hr
  constructor
  · intro hadmits
    have hrow := List.getElem?_eq_getElem (row_lt_length (decode w))
    exact row_unique hrow hr (admits_of_row hrow) hadmits
  · rintro rfl
    exact admits_of_row hr

/-! ## Decoding an instruction's word (R88, R89) -/

/-! ### Reading a field back from where the encoder put it

First a part of any concatenation, by how many parts stand below it; then the fields of R72 to R86. -/

section

variable {k m n p q r : Nat} (x : BitVec k) (b : BitVec m) (y : BitVec n) (z : BitVec p) (u : BitVec q) (v : BitVec r)

theorem extractLsb'_before_one : (x ++ b ++ y).extractLsb' n m = b := by
  rw [extractLsb'_append_eq_of_le le_rfl, Nat.sub_self, extractLsb'_append_eq_right]

theorem extractLsb'_before_two : (x ++ b ++ y ++ z).extractLsb' (n + p) m = b := by
  rw [extractLsb'_append_eq_of_le (Nat.le_add_left p n), Nat.add_sub_cancel, extractLsb'_before_one]

theorem extractLsb'_before_three : (x ++ b ++ y ++ z ++ u).extractLsb' (n + p + q) m = b := by
  rw [extractLsb'_append_eq_of_le (Nat.le_add_left q _), Nat.add_sub_cancel, extractLsb'_before_two]

theorem extractLsb'_before_four : (x ++ b ++ y ++ z ++ u ++ v).extractLsb' (n + p + q + r) m = b := by
  rw [extractLsb'_append_eq_of_le (Nat.le_add_left r _), Nat.add_sub_cancel, extractLsb'_before_three]

end

theorem cregLow_append (x : BitVec 11) (f : CReg) (op : BitVec 2) : cregLow (x ++ cregBits f ++ op) = f :=
  cregLow_eq_iff.2 (extractLsb'_before_one _ _ _)

theorem cregHigh_append_mem (x : BitVec 6) (f : CReg) (a b : BitVec 1) (c : BitVec 3) (op : BitVec 2) :
    cregHigh (x ++ cregBits f ++ a ++ b ++ c ++ op) = f :=
  cregHigh_eq_iff.2 (extractLsb'_before_four _ _ _ _ _ _)

theorem cregHigh_append_cb (x : BitVec 6) (f : CReg) (a : BitVec 5) (op : BitVec 2) :
    cregHigh (x ++ cregBits f ++ a ++ op) = f :=
  cregHigh_eq_iff.2 (extractLsb'_before_two _ _ _ _)

theorem cregHigh_append_ca (x : BitVec 6) (f : CReg) (a : BitVec 2) (b : BitVec 3) (op : BitVec 2) :
    cregHigh (x ++ cregBits f ++ a ++ b ++ op) = f :=
  cregHigh_eq_iff.2 (extractLsb'_before_three _ _ _ _ _)

theorem rdField_append (x : BitVec 4) (r : Reg) (a : BitVec 5) (op : BitVec 2) :
    rdField (x ++ regBits r ++ a ++ op) = r :=
  rdField_eq_iff.2 (extractLsb'_before_two _ _ _ _)

theorem shamtField_append (x : BitVec 9) (sh : BitVec 5) (op : BitVec 2) : shamtField (x ++ sh ++ op) = sh :=
  extractLsb'_before_one _ _ _

theorem imm6_append_ci (f : BitVec 3) (v : BitVec 6) (r : BitVec 5) (op : BitVec 2) :
    imm6 (f ++ v.extractLsb' 5 1 ++ r ++ v.extractLsb' 0 5 ++ op) = v := by
  simp (disch := decide) only [imm6, extractLsb'_append_eq_of_add_le, extractLsb'_append_eq_of_le,
    Nat.reduceSub, extractLsb'_eq_self, extractLsb'_append_extractLsb'_eq_extractLsb']

theorem imm6_append_cb (f : BitVec 3) (v : BitVec 6) (a : BitVec 2) (r : BitVec 3) (op : BitVec 2) :
    imm6 (f ++ v.extractLsb' 5 1 ++ a ++ r ++ v.extractLsb' 0 5 ++ op) = v := by
  simp (disch := decide) only [imm6, extractLsb'_append_eq_of_add_le, extractLsb'_append_eq_of_le,
    Nat.reduceSub, extractLsb'_eq_self, extractLsb'_append_extractLsb'_eq_extractLsb']

theorem immMem_append (f r r' : BitVec 3) (op : BitVec 2) {v : BitVec 7} (hv : v.extractLsb' 0 2 = 0#2) :
    immMem (f ++ v.extractLsb' 3 3 ++ r ++ v.extractLsb' 2 1 ++ v.extractLsb' 6 1 ++ r' ++ op) = v := by
  simp (disch := decide) only [immMem, extractLsb'_append_eq_of_add_le, extractLsb'_append_eq_of_le,
    Nat.reduceSub, extractLsb'_eq_self, ← hv, extractLsb'_append_extractLsb'_eq_extractLsb']

theorem immAddi4spn_encode (rd : CReg) {v : BitVec 10} (hv : v.extractLsb' 0 2 = 0#2) :
    immAddi4spn (encode (.addi4spn rd v)) = v := by
  simp (disch := decide) only [encode, immAddi4spn, extractLsb'_append_eq_of_add_le, extractLsb'_append_eq_of_le,
    Nat.reduceSub, extractLsb'_eq_self, ← hv, extractLsb'_append_extractLsb'_eq_extractLsb']

theorem immJal_encode {v : BitVec 12} (hv : v.extractLsb' 0 1 = 0#1) : immJal (encode (.jal v)) = v := by
  simp (disch := decide) only [encode, immJal, extractLsb'_append_eq_of_add_le, extractLsb'_append_eq_of_le,
    Nat.reduceSub, extractLsb'_eq_self, ← hv, extractLsb'_append_extractLsb'_eq_extractLsb']

theorem immAddi16sp_encode {v : BitVec 10} (hv : v.extractLsb' 0 4 = 0#4) :
    immAddi16sp (encode (.addi16sp v)) = v := by
  simp (disch := decide) only [encode, immAddi16sp, extractLsb'_append_eq_of_add_le, extractLsb'_append_eq_of_le,
    Nat.reduceSub, extractLsb'_eq_self, ← hv, extractLsb'_append_extractLsb'_eq_extractLsb']

/-! ### Row by row -/

/-- A field that the row's mask covers. -/
theorem field_encode {i : Instr} {r : OpcodeRow} (hr : opcodeTable[i.row]? = some r) (start len : Nat)
    (hm : r.mask.extractLsb' start len = allOnes len) :
    (encode i).extractLsb' start len = r.pattern.extractLsb' start len :=
  field_eq_of_masked (encode_matches_row i r hr) start len hm

/-- The fixed fields of the word lead the decoder to the instruction's row, by `field_encode`; the constraints keep it
out of the rows of the special cases; the operand fields read back as they were written. -/
theorem decode_encode {i : Instr} (hi : i.wf = true) : decode (encode i) = i := by
  have fixed := @field_encode i
  cases i with
  | addi4spn rd v =>
    obtain ⟨hne, hlow⟩ : v ≠ 0#10 ∧ v.extractLsb' 0 2 = 0#2 := by simpa [Instr.wf] using hi
    have himm := immAddi4spn_encode rd hlow
    have hz : (encode (.addi4spn rd v)).extractLsb' 5 8 ≠ 0#8 := by rwa [Ne, ← immAddi4spn_eq_zero_iff, himm]
    rw [(DecodesAs.addi4spn (fixed rfl 0 2 rfl) (fixed rfl 13 3 rfl) hz).decode_eq, himm, encode, cregLow_append]
  | reservedAddi4spnImm0 rd =>
    rw [(DecodesAs.reservedAddi4spnImm0 (fixed rfl 0 2 rfl) (fixed rfl 13 3 rfl) (fixed rfl 5 8 rfl)).decode_eq, encode,
      cregLow_append]
  | lw rd rs1 v =>
    have hlow : v.extractLsb' 0 2 = 0#2 := by simpa [Instr.wf] using hi
    rw [(DecodesAs.lw (fixed rfl 0 2 rfl) (fixed rfl 13 3 rfl)).decode_eq, encode, cregLow_append, cregHigh_append_mem,
      immMem_append _ _ _ _ hlow]
  | sw rs2 rs1 v =>
    have hlow : v.extractLsb' 0 2 = 0#2 := by simpa [Instr.wf] using hi
    rw [(DecodesAs.sw (fixed rfl 0 2 rfl) (fixed rfl 13 3 rfl)).decode_eq, encode, cregLow_append, cregHigh_append_mem,
      immMem_append _ _ _ _ hlow]
  | nop => rfl
  | addi rd v =>
    have hnop : ¬ (rd = 0 ∧ v = 0#6) := by simpa [Instr.wf, ← imp_iff_not_or] using hi
    have hrd : rdField (encode (.addi rd v)) = rd := rdField_append _ _ _ _
    have himm : imm6 (encode (.addi rd v)) = v := imm6_append_ci _ _ _ _
    rw [(DecodesAs.addi (fixed rfl 0 2 rfl) (fixed rfl 13 3 rfl) (by rwa [hrd, himm])).decode_eq, hrd, himm]
  | jal v =>
    have hlow : v.extractLsb' 0 1 = 0#1 := by simpa [Instr.wf] using hi
    rw [(DecodesAs.jal (fixed rfl 0 2 rfl) (fixed rfl 13 3 rfl)).decode_eq, immJal_encode hlow]
  | li rd v =>
    have hne : rd ≠ 0 := by simpa [Instr.wf] using hi
    have hrd : rdField (encode (.li rd v)) = rd := rdField_append _ _ _ _
    rw [(DecodesAs.li (fixed rfl 0 2 rfl) (fixed rfl 13 3 rfl) (by rwa [hrd])).decode_eq, hrd, encode, imm6_append_ci]
  | hintLiRd0 v =>
    have hrd : rdField (encode (.hintLiRd0 v)) = 0 := rdField_eq_iff.2 (fixed rfl 7 5 rfl)
    rw [(DecodesAs.hintLiRd0 (fixed rfl 0 2 rfl) (fixed rfl 13 3 rfl) hrd).decode_eq, encode, imm6_append_ci]
  | lui rd v =>
    obtain ⟨hne0, hne2⟩ : rd ≠ 0 ∧ rd ≠ 2 := by simpa [Instr.wf] using hi
    have hrd : rdField (encode (.lui rd v)) = rd := rdField_append _ _ _ _
    rw [(DecodesAs.lui (fixed rfl 0 2 rfl) (fixed rfl 13 3 rfl) (by rwa [hrd]) (by rwa [hrd])).decode_eq, hrd, encode,
      imm6_append_ci]
  | reservedLuiRd0 v =>
    have hrd : rdField (encode (.reservedLuiRd0 v)) = 0 := rdField_eq_iff.2 (fixed rfl 7 5 rfl)
    rw [(DecodesAs.reservedLuiRd0 (fixed rfl 0 2 rfl) (fixed rfl 13 3 rfl) hrd).decode_eq, encode, imm6_append_ci]
  | addi16sp v =>
    obtain ⟨hne, hlow⟩ : v ≠ 0#10 ∧ v.extractLsb' 0 4 = 0#4 := by simpa [Instr.wf] using hi
    have hrd : rdField (encode (.addi16sp v)) = 2 := rdField_eq_iff.2 (fixed rfl 7 5 rfl)
    have himm := immAddi16sp_encode hlow
    have hz : imm6 (encode (.addi16sp v)) ≠ 0#6 := by rwa [Ne, ← immAddi16sp_eq_zero_iff, himm]
    rw [(DecodesAs.addi16sp (fixed rfl 0 2 rfl) (fixed rfl 13 3 rfl) hrd hz).decode_eq, himm]
  | reservedAddi16spImm0 => rfl
  | srli rd sh =>
    have hne : sh ≠ 0#5 := by simpa [Instr.wf] using hi
    have hsh : shamtField (encode (.srli rd sh)) = sh := shamtField_append _ _ _
    rw [(DecodesAs.srli (fixed rfl 0 2 rfl) (fixed rfl 13 3 rfl) (fixed rfl 10 2 rfl) (fixed rfl 12 1 rfl)
      (by rwa [hsh])).decode_eq, hsh, encode, cregHigh_append_cb]
  | hintSrliShamt0 rd =>
    rw [(DecodesAs.hintSrliShamt0 (fixed rfl 0 2 rfl) (fixed rfl 13 3 rfl) (fixed rfl 10 2 rfl) (fixed rfl 12 1 rfl)
      (fixed rfl 2 5 rfl)).decode_eq, encode, cregHigh_append_cb]
  | srai rd sh =>
    have hne : sh ≠ 0#5 := by simpa [Instr.wf] using hi
    have hsh : shamtField (encode (.srai rd sh)) = sh := shamtField_append _ _ _
    rw [(DecodesAs.srai (fixed rfl 0 2 rfl) (fixed rfl 13 3 rfl) (fixed rfl 10 2 rfl) (fixed rfl 12 1 rfl)
      (by rwa [hsh])).decode_eq, hsh, encode, cregHigh_append_cb]
  | hintSraiShamt0 rd =>
    rw [(DecodesAs.hintSraiShamt0 (fixed rfl 0 2 rfl) (fixed rfl 13 3 rfl) (fixed rfl 10 2 rfl) (fixed rfl 12 1 rfl)
      (fixed rfl 2 5 rfl)).decode_eq, encode, cregHigh_append_cb]
  | reservedShiftShamt5 k rd sh =>
    have hcb : funct2Cb (encode (.reservedShiftShamt5 k rd sh)) = k.bits := extractLsb'_before_three _ _ _ _ _
    rw [(DecodesAs.reservedShiftShamt5 k (fixed rfl 0 2 rfl) (fixed rfl 13 3 rfl) hcb (fixed rfl 12 1 rfl)).decode_eq,
      encode, cregHigh_append_cb, shamtField_append]
  | andi rd v =>
    rw [(DecodesAs.andi (fixed rfl 0 2 rfl) (fixed rfl 13 3 rfl) (fixed rfl 10 2 rfl)).decode_eq, encode,
      cregHigh_append_cb, imm6_append_cb]
  | sub rd rs2 =>
    rw [(DecodesAs.sub (fixed rfl 0 2 rfl) (fixed rfl 13 3 rfl) (fixed rfl 10 2 rfl) (fixed rfl 12 1 rfl)
      (fixed rfl 5 2 rfl)).decode_eq, encode, cregHigh_append_ca, cregLow_append]
  | xor rd rs2 =>
    rw [(DecodesAs.xor (fixed rfl 0 2 rfl) (fixed rfl 13 3 rfl) (fixed rfl 10 2 rfl) (fixed rfl 12 1 rfl)
      (fixed rfl 5 2 rfl)).decode_eq, encode, cregHigh_append_ca, cregLow_append]
  | undocQ0F001 b =>
    rw [(DecodesAs.undocQ0F001 (fixed rfl 0 2 rfl) (fixed rfl 13 3 rfl)).decode_eq, encode, extractLsb'_before_one]
  | undocQ0F011 b =>
    rw [(DecodesAs.undocQ0F011 (fixed rfl 0 2 rfl) (fixed rfl 13 3 rfl)).decode_eq, encode, extractLsb'_before_one]
  | undocQ0F100 b =>
    rw [(DecodesAs.undocQ0F100 (fixed rfl 0 2 rfl) (fixed rfl 13 3 rfl)).decode_eq, encode, extractLsb'_before_one]
  | undocQ0F101 b =>
    rw [(DecodesAs.undocQ0F101 (fixed rfl 0 2 rfl) (fixed rfl 13 3 rfl)).decode_eq, encode, extractLsb'_before_one]
  | undocQ0F111 b =>
    rw [(DecodesAs.undocQ0F111 (fixed rfl 0 2 rfl) (fixed rfl 13 3 rfl)).decode_eq, encode, extractLsb'_before_one]
  | undocQ1F101 b =>
    rw [(DecodesAs.undocQ1F101 (fixed rfl 0 2 rfl) (fixed rfl 13 3 rfl)).decode_eq, encode, extractLsb'_before_one]
  | undocQ1F110 b =>
    rw [(DecodesAs.undocQ1F110 (fixed rfl 0 2 rfl) (fixed rfl 13 3 rfl)).decode_eq, encode, extractLsb'_before_one]
  | undocQ1F111 b =>
    rw [(DecodesAs.undocQ1F111 (fixed rfl 0 2 rfl) (fixed rfl 13 3 rfl)).decode_eq, encode, extractLsb'_before_one]
  | undocQ1Ca1x top low =>
    have htop : (encode (.undocQ1Ca1x top low)).extractLsb' 7 3 = top := extractLsb'_before_three _ _ _ _ _
    rw [(DecodesAs.undocQ1Ca1x (fixed rfl 0 2 rfl) (fixed rfl 13 3 rfl) (fixed rfl 10 2 rfl) (fixed rfl 12 1 rfl)
      (fixed rfl 6 1 rfl)).decode_eq, htop, encode, extractLsb'_before_one]
  | undocQ1F100111 b =>
    rw [(DecodesAs.undocQ1F100111 (fixed rfl 0 2 rfl) (fixed rfl 13 3 rfl) (fixed rfl 10 2 rfl)
      (fixed rfl 12 1 rfl)).decode_eq, encode, extractLsb'_before_one]
  | undocQ2 b => rw [(DecodesAs.undocQ2 (fixed rfl 0 2 rfl)).decode_eq, encode, extractLsb'_append_eq_left]
  | undocOp11 b => rw [(DecodesAs.undocOp11 (fixed rfl 0 2 rfl)).decode_eq, encode, extractLsb'_append_eq_left]

/-- Settles O6: the word of an instruction leads the decoder back to its row and its operands. -/
theorem decodeOfEncode : Obligations.DecodeOfEncode :=
  fun _ => decode_encode

/-! ## Words of the spec, and bytes (R43, R70) -/

/-- Settles O5: each is a fixed word, which `decode` evaluates. -/
theorem decodeSpecWords : Obligations.DecodeSpecWords :=
  ⟨fun _ => rfl, by decide⟩

theorem append_bytes (w : InstWord) : w.extractLsb' 8 8 ++ w.extractLsb' 0 8 = w := by
  simp (disch := decide) only [extractLsb'_append_extractLsb'_eq_extractLsb', extractLsb'_eq_self]

/-- Settles O10: the two bytes side by side, the later one above, are the word. -/
theorem bytesDecodeLittleEndian : Obligations.BytesDecodeLittleEndian := by
  refine ⟨fun w rest => ?_, rfl, fun _ => rfl⟩
  change Except.ok (decode (w.extractLsb' 8 8 ++ w.extractLsb' 0 8), rest) = _
  rw [append_bytes]

end Sys2Proof

namespace Sys2Proof

open BitVec

/-! # Quadrant 0: C.ADDI4SPN, C.LW and C.SW (spec/40_quadrant0.md, R110 to R113)

## The immediates, part by part (R80, R81) -/

/-- R80: where each part of `nzuimm` stands in the word. -/
theorem immAddi4spn_scatter (w : InstWord) :
    (immAddi4spn w).extractLsb' 6 4 = w.extractLsb' 7 4 ∧ (immAddi4spn w).extractLsb' 4 2 = w.extractLsb' 11 2 ∧
      (immAddi4spn w).extractLsb' 3 1 = w.extractLsb' 5 1 ∧ (immAddi4spn w).extractLsb' 2 1 = w.extractLsb' 6 1 ∧
      (immAddi4spn w).extractLsb' 0 2 = 0b00#2 := by
  refine ⟨?_, extractLsb'_before_three _ _ _ _ _, extractLsb'_before_two _ _ _ _, extractLsb'_before_one _ _ _,
    immAddi4spn_low w⟩
  simp (disch := decide) only [immAddi4spn, extractLsb'_append_eq_of_le, Nat.reduceSub, extractLsb'_eq_self]

/-- R81: where each part of `uimm` stands in the word. -/
theorem immMem_scatter (w : InstWord) :
    (immMem w).extractLsb' 6 1 = w.extractLsb' 5 1 ∧ (immMem w).extractLsb' 3 3 = w.extractLsb' 10 3 ∧
      (immMem w).extractLsb' 2 1 = w.extractLsb' 6 1 ∧ (immMem w).extractLsb' 0 2 = 0b00#2 := by
  refine ⟨?_, extractLsb'_before_two _ _ _ _, extractLsb'_before_one _ _ _, immMem_low w⟩
  simp (disch := decide) only [immMem, extractLsb'_append_eq_of_le, Nat.reduceSub, extractLsb'_eq_self]

end Sys2Proof

namespace Sys2Proof.Machine

/-! ## Instructions that end in a register write or in the pc alone -/

theorem writeBack_completes (rd : Reg) (v : Word) (s : State) :
    ∃ t, writeBack rd v s = .next t ∧ RegisterEffect rd v s t :=
  ⟨_, writeBack_eq rd v s, registerEffect_writeBack rd v s⟩

/-- Settles O39: these rows end in `writeBack`, in `retire` or, C.JAL, in a next state outright, and nothing before that end
checks anything. -/
theorem registerInstructionsCannotStop : Obligations.RegisterInstructionsCannotStop := by
  intro i s hclass hlw hsw
  cases i with
  | lw rd rs1 u => exact absurd rfl (hlw rd rs1 u)
  | sw rs2 rs1 u => exact absurd rfl (hsw rs2 rs1 u)
  | jal imm => exact ⟨_, rfl⟩
  | nop | hintLiRd0 imm | hintSrliShamt0 rd | hintSraiShamt0 rd => exact ⟨_, retire_eq s⟩
  | addi4spn rd imm | addi rd imm | li rd imm | lui rd imm | addi16sp imm | srli rd imm | srai rd imm | andi rd imm
  | sub rd rs2 | xor rd rs2 => exact ⟨_, writeBack_eq _ _ s⟩
  | _ => simp [Instr.rowClass] at hclass

/-! ## C.ADDI4SPN (R110) -/

/-- Settles O15: the decoder's row with the scatter of R80, and `writeBack` of the sum. -/
theorem addi4spnRule : Obligations.Addi4spnRule := by
  refine ⟨fun w hop hf himm => ?_, fun rd v s => writeBack_completes rd.reg _ s⟩
  exact ⟨_, _, (DecodesAs.addi4spn hop hf himm).decode_eq, rfl, immAddi4spn_scatter w⟩

/-! ## C.LW (R112) -/

/-- C.LW completes exactly if the checks of R46 and R47 pass, and then in one state. -/
theorem exec_lw_eq_next {rd rs1 : CReg} {u : BitVec 7} {s t : State} :
    exec (.lw rd rs1 u) s = .next t ↔ Aligned (s.reg rs1.reg + zext32 u) ∧
      AllFour s.memMap.readable (s.reg rs1.reg + zext32 u) ∧
      writeBack rd.reg (s.mem.word (s.reg rs1.reg + zext32 u)) s = .next t := by
  rw [exec, execLw, andThen_eq_next, dataAddr_eq]
  simp only [memRead_eq_next, and_assoc, exists_and_left, exists_eq_left]

/-- Settles O16, from `exec_lw_eq_next`. -/
theorem lwRule : Obligations.LwRule := by
  refine ⟨fun w hop hf => ?_, ?_, fun rd rs1 u s t h => ?_⟩
  · exact ⟨_, _, _, (DecodesAs.lw hop hf).decode_eq, rfl, rfl, immMem_scatter w⟩
  · rintro rd rs1 u s _ rfl haligned hreadable
    obtain ⟨t, hwrite, heffect⟩ := writeBack_completes rd.reg (s.mem.word (s.reg rs1.reg + zext32 u)) s
    exact ⟨t, exec_lw_eq_next.2 ⟨haligned, hreadable, hwrite⟩, heffect⟩
  · obtain ⟨haligned, hreadable, -⟩ := exec_lw_eq_next.1 h
    exact ⟨haligned, hreadable⟩

/-! ## C.SW (R113) -/

/-- C.SW completes exactly if the checks of R46, R47 and R53 pass, and then in one state. -/
theorem exec_sw_eq_next {rs2 rs1 : CReg} {u : BitVec 7} {s t : State} :
    exec (.sw rs2 rs1 u) s = .next t ↔ Aligned (s.reg rs1.reg + zext32 u) ∧
      AllFour s.memMap.writable (s.reg rs1.reg + zext32 u) ∧
      ¬ SomeOfFour s.memMap.executable (s.reg rs1.reg + zext32 u) ∧
      retire { s with mem := s.mem.setWord (s.reg rs1.reg + zext32 u) (s.reg rs2.reg) } = .next t := by
  rw [exec, execSw, andThen_eq_next, dataAddr_eq]
  simp only [memWrite_eq_next, and_assoc, exists_and_left, exists_eq_left]

/-- The four bytes of a stored word, least significant first (R42, R43): no two of the four addresses are equal. -/
theorem bytes_setWord {m : Memory} (hm : m.wf = true) (a v : Word) :
    (m.setWord a v).byte a = v.extractLsb' 0 8 ∧ (m.setWord a v).byte (a + 1#32) = v.extractLsb' 8 8 ∧
      (m.setWord a v).byte (a + 2#32) = v.extractLsb' 16 8 ∧ (m.setWord a v).byte (a + 3#32) = v.extractLsb' 24 8 := by
  simp [Memory.byte_setWord hm]

theorem byte_setWord_of_ne {m : Memory} (hm : m.wf = true) {a b : Word} (v : Word) (h0 : b ≠ a) (h1 : b ≠ a + 1#32)
    (h2 : b ≠ a + 2#32) (h3 : b ≠ a + 3#32) : (m.setWord a v).byte b = m.byte b := by
  simp [Memory.byte_setWord hm, h0, h1, h2, h3]

/-- Settles O17, from `exec_sw_eq_next` and the bytes of a stored word. -/
theorem swRule : Obligations.SwRule := by
  refine ⟨fun w hop hf => ?_, ?_, fun rs2 rs1 u s t h => ?_⟩
  · exact ⟨_, _, _, (DecodesAs.sw hop hf).decode_eq, rfl, rfl, immMem_scatter w⟩
  · rintro rs2 rs1 u s _ _ rfl rfl hmem haligned hwritable hnotCode
    obtain ⟨hb0, hb1, hb2, hb3⟩ := bytes_setWord hmem (s.reg rs1.reg + zext32 u) (s.reg rs2.reg)
    exact ⟨_, exec_sw_eq_next.2 ⟨haligned, hwritable, hnotCode, retire_eq _⟩, rfl, fun r => by simp, ⟨rfl, rfl⟩,
      hb0, hb1, hb2, hb3, fun b h0 h1 h2 h3 => byte_setWord_of_ne hmem _ h0 h1 h2 h3⟩
  · obtain ⟨haligned, hwritable, hnotCode, -⟩ := exec_sw_eq_next.1 h
    exact ⟨haligned, hwritable, hnotCode⟩

end Sys2Proof.Machine

namespace Sys2Proof

open BitVec

/-! # Quadrant 1: the immediate and jump instructions (spec/41_quadrant1_imm_jump.md, R120 to R128)

## Fields and immediates, part by part (R79, R82, R83, R85) -/

/-- R82: where each part of `imm` stands in the word. -/
theorem imm6_scatter (w : InstWord) :
    (imm6 w).extractLsb' 5 1 = w.extractLsb' 12 1 ∧ (imm6 w).extractLsb' 0 5 = w.extractLsb' 2 5 :=
  ⟨extractLsb'_append_eq_left, extractLsb'_append_eq_right⟩

/-- R83: where each part of the offset stands in the word. -/
theorem immJal_scatter (w : InstWord) :
    (immJal w).extractLsb' 11 1 = w.extractLsb' 12 1 ∧ (immJal w).extractLsb' 10 1 = w.extractLsb' 8 1 ∧
      (immJal w).extractLsb' 8 2 = w.extractLsb' 9 2 ∧ (immJal w).extractLsb' 7 1 = w.extractLsb' 6 1 ∧
      (immJal w).extractLsb' 6 1 = w.extractLsb' 7 1 ∧ (immJal w).extractLsb' 5 1 = w.extractLsb' 2 1 ∧
      (immJal w).extractLsb' 4 1 = w.extractLsb' 11 1 ∧ (immJal w).extractLsb' 1 3 = w.extractLsb' 3 3 ∧
      (immJal w).extractLsb' 0 1 = 0b0#1 := by
  refine ⟨?_, ?_, ?_, ?_, ?_, extractLsb'_before_three _ _ _ _ _, extractLsb'_before_two _ _ _ _,
    extractLsb'_before_one _ _ _, immJal_low w⟩
  all_goals
    simp (disch := decide) only [immJal, extractLsb'_append_eq_of_add_le, extractLsb'_append_eq_of_le, Nat.reduceSub,
      extractLsb'_eq_self]

/-- R85: where each part of the immediate stands in the word. -/
theorem immAddi16sp_scatter (w : InstWord) :
    (immAddi16sp w).extractLsb' 9 1 = w.extractLsb' 12 1 ∧ (immAddi16sp w).extractLsb' 7 2 = w.extractLsb' 3 2 ∧
      (immAddi16sp w).extractLsb' 6 1 = w.extractLsb' 5 1 ∧ (immAddi16sp w).extractLsb' 5 1 = w.extractLsb' 2 1 ∧
      (immAddi16sp w).extractLsb' 4 1 = w.extractLsb' 6 1 ∧ (immAddi16sp w).extractLsb' 0 4 = 0#4 := by
  refine ⟨?_, extractLsb'_before_four _ _ _ _ _ _, extractLsb'_before_three _ _ _ _ _, extractLsb'_before_two _ _ _ _,
    extractLsb'_before_one _ _ _, immAddi16sp_low w⟩
  simp (disch := decide) only [immAddi16sp, extractLsb'_append_eq_of_le, Nat.reduceSub, extractLsb'_eq_self]

/-- R121: C.NOP is one word. -/
theorem decode_eq_nop_iff {w : InstWord} : decode w = .nop ↔ w = 0x0001#16 := by
  refine ⟨fun h => ?_, fun h => by subst h; decide⟩
  rw [← encodeOfDecode w, h]
  rfl

/-- A word with the fields of C.ADDI other than C.NOP's (R120, R121). -/
theorem decodesAs_addi {w : InstWord} (hop : opField w = 0b01#2) (hf : funct3 w = 0b000#3) (hw : w ≠ 0x0001#16) :
    DecodesAs w (.addi (rdField w) (imm6 w)) :=
  .addi hop hf fun ⟨hrd, himm⟩ => hw (decode_eq_nop_iff.1 (DecodesAs.nop hop hf hrd himm).decode_eq)

/-- A word with the fields of C.ADDI16SP other than the Reserved one (R127, R128). -/
theorem decodesAs_addi16sp {w : InstWord} (hop : opField w = 0b01#2) (hf : funct3 w = 0b011#3) (hrd : rdField w = 2)
    (hw : w ≠ 0x6101#16) : DecodesAs w (.addi16sp (immAddi16sp w)) :=
  .addi16sp hop hf hrd fun himm => hw (DecodesAs.reservedAddi16spImm0 hop hf hrd himm).encode_eq.symm

/-! ## Evenness (R27) -/

theorem even32_add {a b : Word} (ha : Even32 a) (hb : Even32 b) : Even32 (a + b) := by
  rw [Even32, getLsbD_add (by decide), ha, hb, carry_zero]
  rfl

/-- R83: an offset that a word encodes is even. -/
theorem even32_sext32_of_wf_jal {imm : BitVec 12} (h : (Instr.jal imm).wf = true) : Even32 (sext32 imm) := by
  have hlow : imm.extractLsb' 0 1 = 0#1 := by simpa [Instr.wf] using h
  have hbit : imm.getLsbD 0 = false := by simpa using congrArg (getLsbD · 0) hlow
  rw [Even32, getLsbD_signExtend, if_pos (by decide), hbit]
  rfl

end Sys2Proof

namespace Sys2Proof.Machine

open BitVec

/-! ## C.JAL (R122) and the pc (R26, R27) -/

theorem exec_jal (v : BitVec 12) (s : State) :
    exec (.jal v) s = .next ((s.setReg 1 (s.pc + 2#32)).setPc (s.pc + sext32 v)) := rfl

/-- Where an instruction that completes goes on: after itself, or at the target of C.JAL. -/
theorem exec_next_pc {i : Instr} {s t : State} (h : exec i s = .next t) :
    t.pc = s.pc + 2#32 ∨ ∃ imm, i = .jal imm ∧ t.pc = s.pc + sext32 imm := by
  rcases exec_next_cases h with
    ⟨rd, v, -, -, rfl⟩ | ⟨-, -, rfl⟩ | ⟨imm, hi, rfl⟩ | ⟨rs2, rs1, u, -, -, -, -, rfl⟩
  · exact .inl rfl
  · exact .inl rfl
  · exact .inr ⟨imm, hi, rfl⟩
  · exact .inl rfl

theorem exec_keeps_pc_even {i : Instr} {s t : State} (hi : i.wf = true) (hs : Even32 s.pc) (h : exec i s = .next t) :
    Even32 t.pc := by
  rcases exec_next_pc h with hpc | ⟨imm, rfl, hpc⟩ <;> rw [hpc]
  · exact even32_add hs rfl
  · exact even32_add hs (even32_sext32_of_wf_jal hi)

theorem step_keeps_pc_even {s t : State} (hs : Even32 s.pc) (h : step s = .next t) : Even32 t.pc := by
  rcases step_next_cases h with ⟨-, rfl⟩ | ⟨w, -, hexec⟩
  · exact hs
  · exact exec_keeps_pc_even (decodeYieldsWellFormed w) hs hexec

/-- Settles O45: a fetched instruction is well-formed, so both the next address and a C.JAL target are even, and the
property every step keeps holds along the run. -/
theorem pcStaysEven : Obligations.PcStaysEven :=
  fun _ _ _ hs hrun => runsTo_keeps (fun _ _ => step_keeps_pc_even) hs hrun

/-! ### The step before and after a jump (R25, R50, R167) -/

theorem step_of_ne_endPc {s : State} (hend : s.endPc ≠ some s.pc) :
    step s = andThen (fetch s) fun w => exec (decode w) s :=
  if_neg fun he => hend ((ended_iff s).1 he)

/-- The step that fetches a word performs its instruction. -/
theorem step_of_fetches {s : State} {w : InstWord} (h : Fetches s w) : step s = exec (decode w) s := by
  rw [step_of_ne_endPc h.1, fetch_of_fetches h, andThen_next]

/-- The step that may not fetch faults at the pc. -/
theorem step_of_not_executable {s : State} (hend : s.endPc ≠ some s.pc)
    (hexec : ¬ (s.memMap.executable s.pc = true ∧ s.memMap.executable (s.pc + 1#32) = true)) :
    step s = .fault (.instructionAccessFault s.pc) := by
  rw [step_of_ne_endPc hend]
  rcases fetch_cases s with ⟨h0, h1, -⟩ | ⟨-, hfetch⟩
  · exact absurd ⟨h0, h1⟩ hexec
  · rw [hfetch, andThen_fault]

/-- Settles O49: C.JAL checks nothing, and the fault is that of the next fetch, under the map and END_PC it left as they
were. -/
theorem jalToUnfetchableTargetFaultsNext : Obligations.JalToUnfetchableTargetFaultsNext := by
  rintro v s _ rfl hend hexec
  exact ⟨_, exec_jal v s, by simp [reg_setReg], rfl, step_of_not_executable (by simpa using hend) (by simpa using hexec)⟩

/-- Settles O20: the decoder's row with the scatter of R83, and the one state C.JAL answers. -/
theorem jalRule : Obligations.JalRule := by
  refine ⟨fun w hop hf => ?_, fun v s => ?_⟩
  · exact ⟨_, (DecodesAs.jal hop hf).decode_eq, immJal_scatter w⟩
  · exact ⟨_, exec_jal v s, fun r => by simp [reg_setReg], rfl, fun a => by simp, by simp, by simp⟩

/-- The word 0x2001 is C.JAL with offset 0: one step links `pc + 2` and is where it was. -/
theorem step_of_fetches_0x2001 {s : State} (h : Fetches s 0x2001#16) :
    ∃ t, step s = .next t ∧ t.pc = s.pc ∧ t.reg 1 = s.pc + 2#32 ∧ Fetches t 0x2001#16 := by
  have hdecode : decode 0x2001#16 = .jal 0#12 := by decide
  have htarget : s.pc + sext32 0#12 = s.pc := BitVec.add_zero s.pc
  have hstep : step s = .next ((s.setReg 1 (s.pc + 2#32)).setPc s.pc) := by
    rw [step_of_fetches h, hdecode, exec_jal, htarget]
  exact ⟨_, hstep, rfl, by simp [reg_setReg], by simpa [Fetches] using h⟩

/-- Settles O50, by induction on the number of steps: each step leads to a state that meets the premise again. -/
theorem jalToItselfRunsForever : Obligations.JalToItselfRunsForever := by
  intro k
  induction k with
  | zero =>
    intro s h
    obtain ⟨t, hstep, hpc, hlink, ht⟩ := step_of_fetches_0x2001 h
    exact ⟨t, runsTo_succ.2 ⟨t, hstep, runsTo_zero.2 rfl⟩, hpc, hlink, ht⟩
  | succ k ih =>
    intro s h
    obtain ⟨u, hstep, hpc, -, hu⟩ := step_of_fetches_0x2001 h
    obtain ⟨t, hrun, htpc, hlink, ht⟩ := ih u hu
    exact ⟨t, runsTo_succ.2 ⟨u, hstep, hrun⟩, htpc.trans hpc, hpc ▸ hlink, ht⟩

/-! ## C.ADDI and C.NOP (R120, R121) -/

/-- Settles O18: the decoder's row, `writeBack` of the sum, and with x0 a write that is discarded. -/
theorem addiRule : Obligations.AddiRule := by
  refine ⟨fun w hop hf hw => ?_, fun rd v s => writeBack_completes rd _ s, fun v s => ?_⟩
  · exact ⟨_, _, (decodesAs_addi hop hf hw).decode_eq, rfl, imm6_scatter w⟩
  · exact ⟨_, retire_eq s, pcEffect_retire s⟩

/-- Settles O19: the one word of C.NOP, and `retire`. -/
theorem nopRule : Obligations.NopRule :=
  ⟨fun _ => decode_eq_nop_iff, fun s => ⟨_, retire_eq s, pcEffect_retire s⟩⟩

/-! ## C.LI (R123) -/

/-- Settles O21: the decoder's row and `writeBack` of the immediate. -/
theorem liRule : Obligations.LiRule := by
  refine ⟨fun w hop hf hrd => ?_, fun rd v s => writeBack_completes rd _ s⟩
  have hrd0 : rdField w ≠ 0 := fun h => hrd (rdField_eq_iff.1 h)
  exact ⟨_, _, (DecodesAs.li hop hf hrd0).decode_eq, rfl, imm6_scatter w⟩

/-! ## C.LUI (R125) -/

/-- R84: the value C.LUI writes is 14 copies of `imm[5]`, the immediate and 12 zeros side by side. -/
theorem operandLui_eq_append (v : BitVec 6) :
    operandLui v = (if v.msb then allOnes 14 else 0#14) ++ v ++ 0#12 := by
  have hmsb : (v ++ 0#12).msb = v.msb := msb_append
  rw [operandLui, sext32, signExtend_eq_append_of_le (by decide), hmsb, append_assoc]

/-- R125: the immediate, the zeros below it and the copies of its top bit above it. -/
theorem operandLui_parts (v : BitVec 6) :
    (operandLui v).extractLsb' 12 6 = v ∧ (operandLui v).extractLsb' 0 12 = 0#12 ∧
      ∀ j, 18 ≤ j → j < 32 → (operandLui v).getLsbD j = v.getLsbD 5 := by
  rw [operandLui_eq_append]
  refine ⟨extractLsb'_before_one _ _ _, extractLsb'_append_eq_right, fun j hlo hhi => ?_⟩
  have h12 : ¬ j < 12 := by omega
  have h6 : ¬ j - 12 < 6 := by omega
  have h14 : j - 12 - 6 < 14 := by omega
  rw [getLsbD_append, if_neg h12, getLsbD_append, if_neg h6, ← msb_eq_getLsbD_last]
  cases v.msb with
  | false => exact getLsbD_zero
  | true => exact getLsbD_allOnes.trans (decide_eq_true h14)

/-- Settles O22: the decoder's row and `writeBack` of the value whose bits `operandLui_parts` gives. -/
theorem luiRule : Obligations.LuiRule := by
  refine ⟨fun w hop hf hrd hrd' => ?_, fun rd v s => ?_⟩
  · have hrd0 : rdField w ≠ 0 := fun h => hrd (rdField_eq_iff.1 h)
    have hrd2 : rdField w ≠ 2 := fun h => hrd' (rdField_eq_iff.1 h)
    exact ⟨_, _, (DecodesAs.lui hop hf hrd0 hrd2).decode_eq, rfl, imm6_scatter w⟩
  · obtain ⟨t, hwrite, heffect⟩ := writeBack_completes rd (operandLui v) s
    exact ⟨t, operandLui v, hwrite, heffect, operandLui_parts v⟩

/-! ## C.ADDI16SP (R127) -/

/-- Settles O23: the decoder's row with the scatter of R85, and `writeBack` of the sum. -/
theorem addi16spRule : Obligations.Addi16spRule := by
  refine ⟨fun w hop hf hrd hw => ?_, fun v s => writeBack_completes spReg _ s⟩
  have hrd2 : rdField w = 2 := rdField_eq_iff.2 hrd
  exact ⟨_, (decodesAs_addi16sp hop hf hrd2 hw).decode_eq, immAddi16sp_scatter w⟩

end Sys2Proof.Machine

namespace Sys2Proof

open BitVec

/-! # Quadrant 1: the shifts and register arithmetic (spec/42_quadrant1_alu.md, R140 to R147)

## The fields of the CA group (R78, R91) and the registers of 3-bit fields (R79) -/

/-- `inst[15:10]` in one piece is the three fields the decoder tests for C.SUB and C.XOR. -/
theorem ca_fields {w : InstWord} (h : w.extractLsb' 10 6 = 0b100011#6) :
    funct3 w = 0b100#3 ∧ bit12 w = 0#1 ∧ funct2Cb w = 0b11#2 := by
  have hparts : funct3 w ++ bit12 w ++ funct2Cb w = 0b100011#6 := by
    rw [← h]
    simp (disch := decide) only [funct3, bit12, funct2Cb, extractLsb'_append_extractLsb'_eq_extractLsb']
  have hf := congrArg (extractLsb' 3 3) hparts
  have hb := congrArg (extractLsb' 2 1) hparts
  have hc := congrArg (extractLsb' 0 2) hparts
  rw [extractLsb'_append_eq_of_le (by decide), extractLsb'_append_eq_left] at hf
  rw [extractLsb'_before_one] at hb
  rw [extractLsb'_append_eq_right] at hc
  exact ⟨hf, hb, hc⟩

/-- A 3-bit field never names x0. -/
theorem CReg.reg_ne_zero (f : CReg) : f.reg ≠ 0 := by
  have hval : 8 + f.val ≠ 0 := by omega
  exact Fin.ne_of_val_ne hval

theorem CReg.reg_injective : Function.Injective CReg.reg := by
  intro f g h
  simpa [CReg.reg, Fin.ext_iff] using h

end Sys2Proof

namespace Sys2Proof.Machine

open BitVec

/-! ## The register file after one write, and after a second that undoes it -/

section

variable {rd r : Reg} {v : Word} {s t u : State}

theorem WritesOnly.reg_dest (h : WritesOnly rd v s t) (hrd : rd ≠ 0) : t.reg rd = v :=
  (h rd).trans (if_pos ⟨rfl, hrd⟩)

theorem WritesOnly.reg_of_ne (h : WritesOnly rd v s t) (hne : r ≠ rd) : t.reg r = s.reg r :=
  (h r).trans (if_neg fun hr => hne hr.1)

/-- Writing a register and then its old value again restores every register. -/
theorem WritesOnly.sameRegs_of_restore (hst : WritesOnly rd v s t) (htu : WritesOnly rd (s.reg rd) t u) :
    SameRegs s u := by
  intro r
  rw [htu r]
  split_ifs with hr
  · rw [hr.1]
  · rw [hst r, if_neg hr]

end

/-! ## C.SRLI (R140) -/

/-- R11: bit `j` of a logical shift right; a bit beyond 31 does not exist and reads 0. -/
theorem getLsbD_aluShiftRightLogical (a : Word) (n j : Nat) :
    (aluShiftRightLogical a n).getLsbD j = if j + n ≤ 31 then a.getLsbD (j + n) else false := by
  rw [aluShiftRightLogical, getLsbD_ushiftRight, Nat.add_comm]
  split_ifs with h
  · rfl
  · exact getLsbD_of_ge a _ (by omega)

/-- Settles O24: the decoder's row, and `writeBack` of the shift whose bits `getLsbD_aluShiftRightLogical` gives. -/
theorem srliRule : Obligations.SrliRule := by
  refine ⟨fun w hop hf h12 hcb hsh => ?_, fun rd sh s => ?_⟩
  · exact ⟨_, (DecodesAs.srli hop hf hcb h12 hsh).decode_eq, rfl⟩
  · obtain ⟨t, hwrite, heffect⟩ := writeBack_completes rd.reg (aluShiftRightLogical (s.reg rd.reg) sh.toNat) s
    exact ⟨t, _, hwrite, heffect, fun j _ => getLsbD_aluShiftRightLogical _ _ j⟩

/-! ## C.SRAI (R142) -/

/-- R11: bit `j` of an arithmetic shift right; a bit beyond 31 does not exist and reads as bit 31. -/
theorem getLsbD_aluShiftRightArithmetic (a : Word) (n : Nat) {j : Nat} (hj : j < 32) :
    (aluShiftRightArithmetic a n).getLsbD j = if j + n ≤ 31 then a.getLsbD (j + n) else a.getLsbD 31 := by
  have hle : ¬ 32 ≤ j := by omega
  rw [aluShiftRightArithmetic, getLsbD_sshiftRight, decide_eq_false hle, Bool.not_false, Bool.true_and, Nat.add_comm n j,
    msb_eq_getLsbD_last]
  exact if_congr Nat.lt_succ_iff rfl rfl

/-- The corner cases of C.SRAI: the shift divides by `2 ^ n` and rounds toward minus infinity. -/
theorem toInt_aluShiftRightArithmetic (a : Word) (n : Nat) :
    (aluShiftRightArithmetic a n).toInt = a.toInt.fdiv (2 ^ n) := by
  have hpos : (0 : Int) ≤ 2 ^ n := by positivity
  rw [aluShiftRightArithmetic, toInt_sshiftRight, Int.shiftRight_eq_div_pow, Int.fdiv_eq_ediv_of_nonneg _ hpos,
    Nat.cast_pow, Nat.cast_ofNat]

theorem exec_srai_completes (rd : CReg) (sh : BitVec 5) (s : State) :
    ∃ t, exec (.srai rd sh) s = .next t ∧
      RegisterEffect rd.reg (aluShiftRightArithmetic (s.reg rd.reg) sh.toNat) s t :=
  writeBack_completes rd.reg _ s

/-- Settles O25: the decoder's row, and the effect of the shift whose bits `getLsbD_aluShiftRightArithmetic` gives. -/
theorem sraiRule : Obligations.SraiRule := by
  refine ⟨fun w hop hf h12 hcb hsh => ?_, fun rd sh s => ?_⟩
  · exact ⟨_, (DecodesAs.srai hop hf hcb h12 hsh).decode_eq, rfl⟩
  · obtain ⟨t, hexec, heffect⟩ := exec_srai_completes rd sh s
    exact ⟨t, _, hexec, heffect, fun j hj => getLsbD_aluShiftRightArithmetic _ _ hj⟩

/-- Settles O51: the register read back holds the shift, which `toInt_aluShiftRightArithmetic` reads as a division. -/
theorem sraiRoundsTowardMinusInfinity : Obligations.SraiRoundsTowardMinusInfinity := by
  intro rd sh s
  obtain ⟨t, hexec, hregs, -⟩ := exec_srai_completes rd sh s
  exact ⟨t, hexec, by rw [hregs.reg_dest rd.reg_ne_zero, toInt_aluShiftRightArithmetic]⟩

/-! ## C.ANDI (R145) -/

/-- Settles O26: the decoder's row with the scatter of R82, and `writeBack` of the conjunction. -/
theorem andiRule : Obligations.AndiRule := by
  refine ⟨fun w hop hf hcb => ?_, fun rd v s => writeBack_completes rd.reg _ s⟩
  exact ⟨_, _, (DecodesAs.andi hop hf hcb).decode_eq, rfl, imm6_scatter w⟩

/-! ## C.SUB (R146) and C.XOR (R147) -/

/-- Settles O27: the decoder's row, and `writeBack` of the difference. -/
theorem subRule : Obligations.SubRule := by
  refine ⟨fun w hop hca hca2 => ?_, fun rd rs2 s => writeBack_completes rd.reg _ s⟩
  obtain ⟨hf, h12, hcb⟩ := ca_fields hca
  exact ⟨_, _, (DecodesAs.sub hop hf hcb h12 hca2).decode_eq, rfl, rfl⟩

theorem exec_xor_completes (rd rs2 : CReg) (s : State) :
    ∃ t, exec (.xor rd rs2) s = .next t ∧ RegisterEffect rd.reg (s.reg rd.reg ^^^ s.reg rs2.reg) s t :=
  writeBack_completes rd.reg _ s

/-- Settles O28: the decoder's row, and the effect of the exclusive OR. -/
theorem xorRule : Obligations.XorRule := by
  refine ⟨fun w hop hca hca2 => ?_, exec_xor_completes⟩
  obtain ⟨hf, h12, hcb⟩ := ca_fields hca
  exact ⟨_, _, (DecodesAs.xor hop hf hcb h12 hca2).decode_eq, rfl, rfl⟩

/-! ### Operations that undo each other (the corner cases of R147 and R127) -/

/-- The second C.XOR finds its other operand as it was, so it takes the first one off again. -/
theorem exec_xor_twice_sameRegs {rd rs2 : CReg} (hne : rd ≠ rs2) (s : State) :
    ∃ t u, exec (.xor rd rs2) s = .next t ∧ exec (.xor rd rs2) t = .next u ∧ SameRegs s u := by
  obtain ⟨t, ht, hst, -⟩ := exec_xor_completes rd rs2 s
  obtain ⟨u, hu, htu, -⟩ := exec_xor_completes rd rs2 t
  have hrs2 : t.reg rs2.reg = s.reg rs2.reg := hst.reg_of_ne (CReg.reg_injective.ne hne.symm)
  rw [hst.reg_dest rd.reg_ne_zero, hrs2, BitVec.xor_assoc, BitVec.xor_self, BitVec.xor_zero] at htu
  exact ⟨t, u, ht, hu, hst.sameRegs_of_restore htu⟩

/-- The sign-extended immediates are opposite: -512, the one value of 10 bits whose opposite does not fit, is left out. -/
theorem exec_addi16sp_opposite_sameRegs {v : BitVec 10} (hv : v ≠ intMin 10) (s : State) :
    ∃ t u, exec (.addi16sp v) s = .next t ∧ exec (.addi16sp (-v)) t = .next u ∧ SameRegs s u := by
  obtain ⟨t, ht, hst, -⟩ := addi16spRule.2 v s
  obtain ⟨u, hu, htu, -⟩ := addi16spRule.2 (-v) t
  have hsp : t.reg 2 = s.reg 2 + sext32 v := hst.reg_dest (by decide)
  rw [hsp, sext32, sext32, signExtend_neg_of_ne_intMin v hv, ← BitVec.sub_eq_add_neg, BitVec.add_sub_cancel] at htu
  exact ⟨t, u, ht, hu, hst.sameRegs_of_restore htu⟩

/-- Settles O52: the second write puts the old value back. -/
theorem xorTwiceAndOppositeAdjustmentsRestore : Obligations.XorTwiceAndOppositeAdjustmentsRestore :=
  ⟨fun _ _ s hne => exec_xor_twice_sameRegs hne s, fun _ s hv => exec_addi16sp_opposite_sameRegs hv s⟩

end Sys2Proof.Machine

namespace Sys2Proof.Machine

/-! # What every instruction, step and run keeps (spec/10_state.md sections 2 and 8, spec/20_memory.md section 6) -/

/-! ## The launch parameters (R34) -/

section

variable {s t u : State}

theorem SameLaunch.refl (s : State) : SameLaunch s s := ⟨rfl, rfl⟩

theorem SameLaunch.trans (hst : SameLaunch s t) (htu : SameLaunch t u) : SameLaunch s u :=
  ⟨htu.1.trans hst.1, htu.2.trans hst.2⟩

theorem exec_sameLaunch {i : Instr} (h : exec i s = .next t) : SameLaunch s t := by
  rcases exec_next_cases h with
    ⟨rd, v, -, -, rfl⟩ | ⟨-, -, rfl⟩ | ⟨imm, -, rfl⟩ | ⟨rs2, rs1, u, -, -, -, -, rfl⟩
  · exact ⟨setReg_memMap s rd v, setReg_endPc s rd v⟩
  · exact .refl s
  · exact ⟨setReg_memMap s 1 (s.pc + 2#32), setReg_endPc s 1 (s.pc + 2#32)⟩
  · exact .refl s

theorem step_sameLaunch (h : step s = .next t) : SameLaunch s t := by
  rcases step_next_cases h with ⟨-, rfl⟩ | ⟨w, -, hexec⟩
  · exact .refl t
  · exact exec_sameLaunch hexec

end

/-- Settles O43: no step changes them, so no run does. -/
theorem runKeepsLaunchParameters : Obligations.RunKeepsLaunchParameters :=
  fun _ s _ hrun => runsTo_keeps (P := SameLaunch s) (fun _ _ hs h => hs.trans (step_sameLaunch h)) (.refl s) hrun

/-! ## The pc (R26) -/

/-- Settles O42, from the two places an instruction can go on at. -/
theorem pcAdvancesByTwo : Obligations.PcAdvancesByTwo := by
  intro i s t hjal h
  rcases exec_next_pc h with hpc | ⟨imm, hi, -⟩
  · exact hpc
  · exact absurd hi (hjal imm)

/-! ## Memory (R17, R53) -/

/-- What an instruction that completes does to memory: nothing, or C.SW stores a word where the map allows it. -/
theorem exec_next_mem {i : Instr} {s t : State} (h : exec i s = .next t) :
    t.mem = s.mem ∨ ∃ rs2 rs1 u, i = .sw rs2 rs1 u ∧ AllFour s.memMap.writable (s.reg rs1.reg + zext32 u) ∧
      ¬ SomeOfFour s.memMap.executable (s.reg rs1.reg + zext32 u) ∧
      t.mem = s.mem.setWord (s.reg rs1.reg + zext32 u) (s.reg rs2.reg) := by
  rcases exec_next_cases h with
    ⟨rd, v, -, -, rfl⟩ | ⟨-, -, rfl⟩ | ⟨imm, -, rfl⟩ | ⟨rs2, rs1, u, hi, -, hwritable, hnotCode, rfl⟩
  · exact .inl (setReg_mem s rd v)
  · exact .inl rfl
  · exact .inl (setReg_mem s 1 (s.pc + 2#32))
  · exact .inr ⟨rs2, rs1, u, hi, hwritable, hnotCode, rfl⟩

/-- Settles O41, from `exec_next_mem`. -/
theorem onlySwWritesMemory : Obligations.OnlySwWritesMemory := by
  intro i s t hsw h a
  rcases exec_next_mem h with hmem | ⟨rs2, rs1, u, hi, -⟩
  · rw [hmem]
  · exact absurd hi (hsw rs2 rs1 u)

/-- What a step that goes on does to memory: nothing, or it stores a word at writable addresses none of which is code. -/
theorem step_next_mem {s t : State} (h : step s = .next t) :
    t.mem = s.mem ∨ ∃ a v, AllFour s.memMap.writable a ∧ ¬ SomeOfFour s.memMap.executable a ∧
      t.mem = s.mem.setWord a v := by
  rcases step_next_cases h with ⟨-, rfl⟩ | ⟨w, -, hexec⟩
  · exact .inl rfl
  · rcases exec_next_mem hexec with hmem | ⟨rs2, rs1, u, -, hwritable, hnotCode, hmem⟩
    · exact .inl hmem
    · exact .inr ⟨_, _, hwritable, hnotCode, hmem⟩

theorem step_keeps_mem_wf {s t : State} (hs : s.mem.wf = true) (h : step s = .next t) : t.mem.wf = true := by
  rcases step_next_mem h with hmem | ⟨a, v, -, -, hmem⟩ <;> rw [hmem]
  · exact hs
  · exact Memory.wf_setWord hs a v

/-! ### Every listed byte exists -/

theorem MemMap.admits_of_writable {m : MemMap} {a : Word} (h : m.writable a = true) : m.admits a = true := by
  simp [MemMap.admits, h]

/-- A store to four writable addresses lists nothing outside the map. -/
theorem admits_of_mem_setWord {map : MemMap} {m : Memory} {a v : Word}
    (hm : ∀ c ∈ m, map.admits (BitVec.ofNat 32 c.1) = true) (hwritable : AllFour map.writable a) :
    ∀ c ∈ m.setWord a v, map.admits (BitVec.ofNat 32 c.1) = true := by
  intro c hc
  have hat : ∀ {b : Word}, map.writable b = true → c.1 = b.toNat → map.admits (BitVec.ofNat 32 c.1) = true := by
    intro b hb hcb
    rw [hcb, BitVec.ofNat_toNat, BitVec.setWidth_eq]
    exact MemMap.admits_of_writable hb
  obtain ⟨h0, h1, h2, h3⟩ := hwritable
  rcases Memory.mem_setWord hc with hlisted | hc | hc | hc | hc
  · exact hm c hlisted
  · exact hat h0 hc
  · exact hat h1 hc
  · exact hat h2 hc
  · exact hat h3 hc

theorem step_keeps_memAdmitted {s t : State} (hs : ∀ c ∈ s.mem, s.memMap.admits (BitVec.ofNat 32 c.1) = true)
    (h : step s = .next t) : ∀ c ∈ t.mem, t.memMap.admits (BitVec.ofNat 32 c.1) = true := by
  rw [(step_sameLaunch h).1]
  rcases step_next_mem h with hmem | ⟨a, v, hwritable, -, hmem⟩ <;> rw [hmem]
  · exact hs
  · exact admits_of_mem_setWord hs hwritable

/-! ## The invariant -/

theorem step_keeps_inv {s t : State} (hs : s.Inv) (h : step s = .next t) : t.Inv where
  pcEven := step_keeps_pc_even hs.pcEven h
  endEven e he := hs.endEven e ((step_sameLaunch h).2 ▸ he)
  memCanonical := step_keeps_mem_wf hs.memCanonical h
  memAdmitted := step_keeps_memAdmitted hs.memAdmitted h

/-- Settles O44: each part of the invariant is kept by itself, the last with the map that no step changes. -/
theorem stepKeepsInvariant : Obligations.StepKeepsInvariant :=
  fun _ _ => step_keeps_inv

/-! ## The program text (R53) -/

/-- A store none of whose four bytes is executable leaves every executable byte. -/
theorem byte_setWord_of_executable {map : MemMap} {m : Memory} (hm : m.wf = true) {a b : Word} (v : Word)
    (hnotCode : ¬ SomeOfFour map.executable a) (hb : map.executable b = true) : (m.setWord a v).byte b = m.byte b := by
  obtain ⟨h0, h1, h2, h3⟩ : map.executable a ≠ true ∧ map.executable (a + 1#32) ≠ true ∧
      map.executable (a + 2#32) ≠ true ∧ map.executable (a + 3#32) ≠ true := by
    simpa only [SomeOfFour, not_or] using hnotCode
  have hne : ∀ {c : Word}, map.executable c ≠ true → b ≠ c := fun hc hbc => hc (hbc ▸ hb)
  exact byte_setWord_of_ne hm v (hne h0) (hne h1) (hne h2) (hne h3)

theorem step_keeps_code_byte {s t : State} {a : Word} (hs : s.mem.wf = true) (ha : s.memMap.executable a = true)
    (h : step s = .next t) : t.mem.byte a = s.mem.byte a := by
  rcases step_next_mem h with hmem | ⟨b, v, -, hnotCode, hmem⟩ <;> rw [hmem]
  exact byte_setWord_of_executable hs v hnotCode ha

/-- What a run from `s` keeps of the executable byte at `a`, with the part of the invariant that its step needs. -/
structure CodeByteKept (s : State) (a : Word) (t : State) : Prop where
  memCanonical : t.mem.wf = true
  executable : t.memMap.executable a = true
  byte : t.mem.byte a = s.mem.byte a

theorem step_codeByteKept {s t u : State} {a : Word} (ht : CodeByteKept s a t) (h : step t = .next u) :
    CodeByteKept s a u where
  memCanonical := step_keeps_mem_wf ht.memCanonical h
  executable := by rw [(step_sameLaunch h).1, ht.executable]
  byte := (step_keeps_code_byte ht.memCanonical ht.executable h).trans ht.byte

/-- Settles O46: a step stores to no executable byte and keeps the map, and so does every run. -/
theorem programTextStaysFixed : Obligations.ProgramTextStaysFixed := by
  intro k s t a hs hrun ha
  have ht : CodeByteKept s a t := runsTo_keeps (fun _ _ => step_codeByteKept) ⟨hs.memCanonical, ha, rfl⟩ hrun
  exact ⟨ht.byte, ht.executable⟩

end Sys2Proof.Machine

namespace Sys2Proof.Machine

/-! # Launch, fetch, placing a word, and the end of a run (spec/70_reset_and_hazards.md, spec/20_memory.md sections 4, 5) -/

/-! ## A launch and its parameters (R190 to R193) -/

/-- Settles O1: `State.launch` copies each parameter, and x0 is not stored. -/
theorem launchStateHoldsItsParameters : Obligations.LaunchStateHoldsItsParameters :=
  fun p hp => ⟨launch_pc p, hp.resetEven, reg_zero _, fun _ _ => rfl, fun _ => rfl, launch_memMap p, launch_endPc p⟩

theorem launch_inv {p : Launch} (hp : p.Wf) : (State.launch p).Inv :=
  ⟨hp.resetEven, hp.endEven, hp.memCanonical, hp.memAdmitted⟩

theorem named_wf : Launch.named.Wf where
  resetEven := by decide
  endEven _ := nofun
  memCanonical := rfl
  memAdmitted := List.forall_mem_nil _

/-- Settles O2: well-formed parameters are what the invariant asks of the first state. -/
theorem launchMeetsInvariant : Obligations.LaunchMeetsInvariant :=
  ⟨fun _ => launch_inv, launch_inv named_wf⟩

/-- The one region of the named launch holds all 2^32 addresses. -/
theorem named_region_contains (a : Word) : Region.contains ⟨0, Config.resetMapBytes, true, true, false⟩ a = true :=
  decide_eq_true (a - 0).isLt

/-- Settles O3: each field of the named launch, and the map by its one region. -/
theorem resetIsTheNamedLaunch : Obligations.ResetIsTheNamedLaunch := by
  refine ⟨rfl, rfl, fun n h => ?_, fun a => ⟨rfl, ?_, ?_, rfl⟩⟩
  · exact Vector.getElem_ofFn h
  · exact List.any_eq_true.2 ⟨_, List.mem_singleton_self _, named_region_contains a⟩
  · exact List.any_eq_true.2 ⟨_, List.mem_singleton_self _, named_region_contains a⟩

/-! ## Every launch the spec allows (R48, R192)

A map with a region of one byte for each address, and a memory written byte by byte. -/

/-- One region for each of the given addresses, with the permissions the three predicates give it. -/
def MemMap.ofPredicates (rd wr ex : Word → Bool) (as : List Word) : MemMap :=
  as.map fun a => ⟨a, 1, rd a, wr a, ex a⟩

/-- Memory that holds `f` at each of the given addresses and lists nothing else. -/
def Memory.ofBytes (f : Word → Byte) : List Word → Memory
  | [] => []
  | a :: as => (Memory.ofBytes f as).setByte a (f a)

theorem Region.contains_iff_of_size_one {base a : Word} {rd wr ex : Bool} :
    Region.contains ⟨base, 1, rd, wr, ex⟩ a = true ↔ base = a := by
  rw [Region.contains, decide_eq_true_iff, Nat.lt_one_iff]
  bv_omega

/-- Of regions of one byte each, the one at `a` decides what holds at `a`. -/
theorem any_ofPredicates {rd wr ex : Word → Bool} {as : List Word} {a : Word} (ha : a ∈ as) {p : Region → Bool}
    {q : Word → Bool} (hpq : ∀ b, p ⟨b, 1, rd b, wr b, ex b⟩ = q b) :
    ((MemMap.ofPredicates rd wr ex as).any fun r => p r && r.contains a) = q a := by
  rw [Bool.eq_iff_iff, MemMap.ofPredicates, List.any_map, List.any_eq_true]
  simp only [Function.comp_apply, Bool.and_eq_true, Region.contains_iff_of_size_one, hpq]
  exact ⟨fun ⟨_, _, hb, hba⟩ => hba ▸ hb, fun hq => ⟨a, ha, hq, rfl⟩⟩

theorem Memory.wf_ofBytes (f : Word → Byte) (as : List Word) : (Memory.ofBytes f as).wf = true := by
  induction as with
  | nil => rfl
  | cons a as ih => exact Memory.wf_setByte ih a (f a)

theorem Memory.byte_ofBytes {f : Word → Byte} {as : List Word} {a : Word} (ha : a ∈ as) :
    (Memory.ofBytes f as).byte a = f a := by
  induction as with
  | nil => cases ha
  | cons b as ih =>
    rw [Memory.ofBytes, Memory.byte_setByte (Memory.wf_ofBytes f as)]
    split_ifs with hab
    · rw [hab]
    · exact ih ((List.mem_cons.1 ha).resolve_left hab)

theorem Memory.address_mem_of_mem_ofBytes {f : Word → Byte} {as : List Word} {c : Host.Cell}
    (hc : c ∈ Memory.ofBytes f as) : BitVec.ofNat 32 c.1 ∈ as := by
  induction as with
  | nil => cases hc
  | cons a as ih =>
    rcases Memory.mem_writeAt hc with hc | hc
    · exact List.mem_cons_of_mem a (ih hc)
    · rw [hc, BitVec.ofNat_toNat, BitVec.setWidth_eq]
      exact List.mem_cons_self

/-- There are finitely many addresses. -/
theorem exists_list_of_addresses : ∃ as : List Word, ∀ a, a ∈ as :=
  ⟨(List.finRange (2 ^ 32)).map BitVec.ofFin, fun a => List.mem_map.2 ⟨a.toFin, List.mem_finRange _, rfl⟩⟩

/-- R48: every triple of predicates is some map. -/
theorem MemMap.exists_of_predicates (rd wr ex : Word → Bool) :
    ∃ m : MemMap, ∀ a : Word, m.readable a = rd a ∧ m.writable a = wr a ∧ m.executable a = ex a := by
  obtain ⟨as, has⟩ := exists_list_of_addresses
  exact ⟨MemMap.ofPredicates rd wr ex as, fun a => ⟨any_ofPredicates (has a) fun _ => rfl,
    any_ofPredicates (has a) fun _ => rfl, any_ofPredicates (has a) fun _ => rfl⟩⟩

/-- R192: every choice of a byte for each address a predicate admits is some canonical memory that lists no other. -/
theorem Memory.exists_of_bytes (p : Word → Bool) (f : Word → Byte) :
    ∃ m : Memory, m.wf = true ∧ (∀ c ∈ m, p (BitVec.ofNat 32 c.1) = true) ∧ ∀ a : Word, p a = true → m.byte a = f a := by
  obtain ⟨as, has⟩ := exists_list_of_addresses
  refine ⟨Memory.ofBytes f (as.filter p), Memory.wf_ofBytes f _, fun c hc => ?_, fun a ha => ?_⟩
  · exact (List.mem_filter.1 (Memory.address_mem_of_mem_ofBytes hc)).2
  · exact Memory.byte_ofBytes (List.mem_filter.2 ⟨has a, ha⟩)

/-- Settles O4: a map for the three predicates, and a memory for the bytes at the addresses it admits. -/
theorem everyLaunchIsRepresentable : Obligations.EveryLaunchIsRepresentable := by
  intro rd wr ex mem0 x0 resetPc endPc hreset hend
  obtain ⟨map, hmap⟩ := MemMap.exists_of_predicates rd wr ex
  obtain ⟨mem, hwf, hadmitted, hbyte⟩ := Memory.exists_of_bytes map.admits mem0
  refine ⟨⟨resetPc, endPc, map, mem, x0⟩, ⟨hreset, hend, hwf, hadmitted⟩, rfl, rfl, rfl, fun a => ?_⟩
  obtain ⟨hrd, hwr, hex⟩ := hmap a
  exact ⟨hrd, hwr, hex, hbyte a⟩

/-! ## Fetch (R25, R50) -/

/-- Settles O11: the fetched word's instruction is all a step performs. -/
theorem stepRunsDecodedInstruction : Obligations.StepRunsDecodedInstruction := by
  rintro s _ hend h0 h1 rfl
  exact step_of_fetches ⟨hend, h0, h1, rfl⟩

/-- Settles O12, from the two things a fetch can do. -/
theorem fetchReadsTwoExecutableBytes : Obligations.FetchReadsTwoExecutableBytes := by
  refine ⟨fun s hs => ?_, fun s hs => ?_, fun s => step_of_not_executable⟩
  · rcases fetch_cases s with ⟨-, -, hfetch⟩ | ⟨hnot, -⟩
    · exact hfetch
    · exact absurd hs hnot
  · rcases fetch_cases s with ⟨h0, h1, -⟩ | ⟨-, hfetch⟩
    · exact absurd ⟨h0, h1⟩ hs
    · exact hfetch

/-! ## The end of a run (R196) -/

theorem step_of_ended {s : State} (hs : s.endPc = some s.pc) : step s = .next s :=
  if_pos ((ended_iff s).2 hs)

/-- Settles O13, by induction on the number of steps: each answers the same state. -/
theorem endedRunStaysInItsFinalState : Obligations.EndedRunStaysInItsFinalState := by
  intro k s t hs
  induction k with
  | zero => exact runsTo_zero
  | succ k ih => simp [runsTo_succ, step_of_ended hs, ih]

/-! ## A placed word (R195) -/

theorem withFetchWord_eq_placeWord (s : State) (w : InstWord) : s.withFetchWord 16 w.toNat = s.placeWord w := by
  rw [State.withFetchWord, Nat.mod_eq_of_lt w.isLt, BitVec.ofNat_toNat, BitVec.setWidth_eq]

theorem executable_cons_of_contains {r : Region} {m : MemMap} {a : Word} (hr : r.executable = true)
    (ha : r.contains a = true) : MemMap.executable (r :: m) a = true := by
  simp [MemMap.executable, hr, ha]

/-- The placed word is the one the next step fetches. -/
theorem fetches_placeWord {s : State} (hm : s.mem.wf = true) (w : InstWord) : Fetches (s.placeWord w) w := by
  have h0 : Region.contains ⟨s.pc, 2, false, false, true⟩ s.pc = true := by simp [Region.contains]
  have h1 : Region.contains ⟨s.pc, 2, false, false, true⟩ (s.pc + 1#32) = true := by
    simp [Region.contains, BitVec.add_comm s.pc]
  refine ⟨?_, executable_cons_of_contains rfl h0, executable_cons_of_contains rfl h1, ?_⟩
  · rw [placeWord_endPc, placeWord_pc]
    split_ifs with hend
    · exact nofun
    · exact fun h => hend ((ended_iff s).2 h)
  · simp [Memory.byte_setHalf hm, append_bytes]

/-- Settles O14: the next step fetches the placed word, and placing it sets no byte but its two. -/
theorem placedWordIsRunNext : Obligations.PlacedWordIsRunNext := by
  intro s w hm
  rw [withFetchWord_eq_placeWord]
  refine ⟨step_of_fetches (fetches_placeWord hm w), reg_congr (placeWord_regs s w), placeWord_pc s w, fun a h0 h1 => ?_⟩
  rw [placeWord_mem, Memory.byte_setHalf hm, if_neg h1, if_neg h0]

end Sys2Proof.Machine

namespace Sys2Proof

open BitVec

/-! # Hints, Reserved and undocumented words (spec/30_encoding.md section 5)

## The words of each class (R92, R93, R96) -/

/-- R93: a word of one of the three groups is a HINT. -/
theorem rowClass_of_hint_mask {w : InstWord}
    (h : w &&& 0xEF83#16 = 0x4001#16 ∨ w &&& 0xFC7F#16 = 0x8001#16 ∨ w &&& 0xFC7F#16 = 0x8401#16) :
    (decode w).rowClass = .hint := by
  rcases h with h | h | h <;> have field := field_eq_of_masked h
  · have hrd : rdField w = 0 := rdField_eq_iff.2 (field 7 5 rfl)
    rw [(DecodesAs.hintLiRd0 (field 0 2 rfl) (field 13 3 rfl) hrd).decode_eq, Instr.rowClass]
  · rw [(DecodesAs.hintSrliShamt0 (field 0 2 rfl) (field 13 3 rfl) (field 10 2 rfl) (field 12 1 rfl)
      (field 2 5 rfl)).decode_eq, Instr.rowClass]
  · rw [(DecodesAs.hintSraiShamt0 (field 0 2 rfl) (field 13 3 rfl) (field 10 2 rfl) (field 12 1 rfl)
      (field 2 5 rfl)).decode_eq, Instr.rowClass]

/-- `inst[11] = 0` leaves the two shifts. -/
theorem exists_shiftKind_bits {w : InstWord} (h : w.extractLsb' 11 1 = 0#1) : ∃ k : ShiftKind, funct2Cb w = k.bits := by
  have hparts : funct2Cb w = 0#1 ++ w.extractLsb' 10 1 := by
    rw [← h]
    exact (extractLsb'_append_extractLsb'_eq_extractLsb' (x := w) (start₁ := 10) (len₁ := 1) rfl).symm
  rw [hparts]
  generalize w.extractLsb' 10 1 = low
  by_cases hlow : low = 1#1
  · exact ⟨.srai, by rw [hlow]; rfl⟩
  · exact ⟨.srli, by rw [eq_zero_of_ne_one hlow]; rfl⟩

/-- R92: a word of one of the four groups is Reserved. -/
theorem rowClass_of_reserved_mask {w : InstWord}
    (h : w &&& 0xFFE3#16 = 0x0000#16 ∨ w &&& 0xEF83#16 = 0x6001#16 ∨ w = 0x6101#16 ∨ w &&& 0xF803#16 = 0x9001#16) :
    (decode w).rowClass = .reserved := by
  rcases h with h | h | rfl | h
  · have field := field_eq_of_masked h
    rw [(DecodesAs.reservedAddi4spnImm0 (field 0 2 rfl) (field 13 3 rfl) (field 5 8 rfl)).decode_eq, Instr.rowClass]
  · have field := field_eq_of_masked h
    have hrd : rdField w = 0 := rdField_eq_iff.2 (field 7 5 rfl)
    rw [(DecodesAs.reservedLuiRd0 (field 0 2 rfl) (field 13 3 rfl) hrd).decode_eq, Instr.rowClass]
  · decide
  · have field := field_eq_of_masked h
    obtain ⟨k, hk⟩ := exists_shiftKind_bits (field 11 1 rfl)
    rw [(DecodesAs.reservedShiftShamt5 k (field 0 2 rfl) (field 13 3 rfl) hk (field 12 1 rfl)).decode_eq, Instr.rowClass]

/-- R96: the words of quadrant 0 without a meaning. -/
theorem rowClass_of_undocumented_q0 {w : InstWord} (hop : opField w = 0b00#2)
    (hf : funct3 w ∈ [0b001#3, 0b011#3, 0b100#3, 0b101#3, 0b111#3]) : (decode w).rowClass = .undocumented := by
  simp only [List.mem_cons, List.not_mem_nil, or_false] at hf
  rcases hf with hf | hf | hf | hf | hf
  · rw [(DecodesAs.undocQ0F001 hop hf).decode_eq, Instr.rowClass]
  · rw [(DecodesAs.undocQ0F011 hop hf).decode_eq, Instr.rowClass]
  · rw [(DecodesAs.undocQ0F100 hop hf).decode_eq, Instr.rowClass]
  · rw [(DecodesAs.undocQ0F101 hop hf).decode_eq, Instr.rowClass]
  · rw [(DecodesAs.undocQ0F111 hop hf).decode_eq, Instr.rowClass]

/-- R96: the words of quadrant 1 without a meaning, outside `funct3 = 100`. -/
theorem rowClass_of_undocumented_q1 {w : InstWord} (hop : opField w = 0b01#2)
    (hf : funct3 w ∈ [0b101#3, 0b110#3, 0b111#3]) : (decode w).rowClass = .undocumented := by
  simp only [List.mem_cons, List.not_mem_nil, or_false] at hf
  rcases hf with hf | hf | hf
  · rw [(DecodesAs.undocQ1F101 hop hf).decode_eq, Instr.rowClass]
  · rw [(DecodesAs.undocQ1F110 hop hf).decode_eq, Instr.rowClass]
  · rw [(DecodesAs.undocQ1F111 hop hf).decode_eq, Instr.rowClass]

/-- R96: the words of quadrant 1 without a meaning, within `funct3 = 100`. -/
theorem rowClass_of_undocumented_q1Alu {w : InstWord} (hop : opField w = 0b01#2) (hf : funct3 w = 0b100#3)
    (hcb : funct2Cb w = 0b11#2) (h : bit12 w = 1#1 ∨ funct2Ca w ∈ [0b10#2, 0b11#2]) :
    (decode w).rowClass = .undocumented := by
  by_cases h12 : bit12 w = 1#1
  · rw [(DecodesAs.undocQ1F100111 hop hf hcb h12).decode_eq, Instr.rowClass]
  · have h6 : w.extractLsb' 6 1 = 1#1 := by
      rcases List.mem_pair.1 (h.resolve_left h12) with hca | hca <;> exact bit6_iff.2 (by rw [hca]; decide)
    rw [(DecodesAs.undocQ1Ca1x hop hf hcb (eq_zero_of_ne_one h12) h6).decode_eq, Instr.rowClass]

end Sys2Proof

namespace Sys2Proof.Machine

/-! ## What the rows of each class do -/

section

variable {i : Instr} (s : State)

theorem exec_of_hint (hi : i.rowClass = .hint) : exec i s = retire s := by
  cases i with
  | hintLiRd0 | hintSrliShamt0 | hintSraiShamt0 => rfl
  | _ => cases hi

theorem exec_of_reserved (hi : i.rowClass = .reserved) : exec i s = .fault (.illegalInstruction (encode i) s.pc) := by
  cases i with
  | reservedAddi4spnImm0 | reservedLuiRd0 | reservedAddi16spImm0 | reservedShiftShamt5 => rfl
  | _ => cases hi

theorem exec_of_undocumented (hi : i.rowClass = .undocumented) : exec i s = .refused (.undocumented (encode i)) := by
  cases i with
  | undocQ0F001 | undocQ0F011 | undocQ0F100 | undocQ0F101 | undocQ0F111 | undocQ1F101 | undocQ1F110 | undocQ1F111
  | undocQ1Ca1x | undocQ1F100111 | undocQ2 | undocOp11 => rfl
  | _ => cases hi

theorem exec_hint_completes (hi : i.rowClass = .hint) : ∃ t, exec i s = .next t ∧ PcEffect s t :=
  ⟨_, (exec_of_hint s hi).trans (retire_eq s), pcEffect_retire s⟩

end

/-! ## Hints (R93) -/

/-- Settles O33: the decoder's three rows, and `retire`. -/
theorem hintsComplete : Obligations.HintsComplete := by
  refine ⟨fun w hop hf hrd => ?_, fun w hop hf h12 hsh => ⟨fun hcb => ?_, fun hcb => ?_⟩, fun v s => ?_, fun rd s => ?_,
    fun rd s => ?_⟩
  · exact ⟨_, (DecodesAs.hintLiRd0 hop hf (rdField_eq_iff.2 hrd)).decode_eq⟩
  · exact ⟨_, (DecodesAs.hintSrliShamt0 hop hf hcb h12 hsh).decode_eq⟩
  · exact ⟨_, (DecodesAs.hintSraiShamt0 hop hf hcb h12 hsh).decode_eq⟩
  · exact exec_hint_completes s rfl
  · exact exec_hint_completes s rfl
  · exact exec_hint_completes s rfl

/-- Settles O32: the fetched word is of a HINT row. -/
theorem hintWordsChangeOnlyPc : Obligations.HintWordsChangeOnlyPc := by
  intro s w hfetch hw
  rw [step_of_fetches hfetch]
  exact exec_hint_completes s (rowClass_of_hint_mask hw)

/-! ## Reserved words (R92) -/

/-- A Reserved row whose word is `w`. -/
theorem reserved_decodes_and_stops {i : Instr} {w : InstWord} (s : State) (hclass : i.rowClass = .reserved)
    (hi : i.wf = true) (hw : encode i = w) : decode w = i ∧ exec i s = .fault (.illegalInstruction w s.pc) :=
  ⟨hw ▸ decode_encode hi, hw ▸ exec_of_reserved s hclass⟩

/-- Settles O35: each word written out is the row's own, so it decodes to the row, and the row faults with it. -/
theorem reservedInstructionsStop : Obligations.ReservedInstructionsStop := by
  refine ⟨fun rd s => ?_, fun v s => ?_, fun s => ?_, fun rd sh s => ?_⟩
  · exact reserved_decodes_and_stops s rfl rfl (by revert rd; decide)
  · exact reserved_decodes_and_stops s rfl rfl rfl
  · exact reserved_decodes_and_stops s rfl rfl rfl
  · obtain ⟨hsrli, hsrliStops⟩ := reserved_decodes_and_stops (i := .reservedShiftShamt5 .srli rd sh) s rfl rfl rfl
    obtain ⟨hsrai, hsraiStops⟩ := reserved_decodes_and_stops (i := .reservedShiftShamt5 .srai rd sh) s rfl rfl rfl
    exact ⟨hsrli, hsrai, hsrliStops, hsraiStops⟩

theorem step_of_fetches_reserved {s : State} {w : InstWord} (hfetch : Fetches s w)
    (hw : (decode w).rowClass = .reserved) : step s = .fault (.illegalInstruction w s.pc) := by
  rw [step_of_fetches hfetch, exec_of_reserved s hw, encodeOfDecode w]

/-- Settles O34: the fetched word is of a Reserved row. -/
theorem reservedWordsRaiseIllegalInstruction : Obligations.ReservedWordsRaiseIllegalInstruction :=
  fun _ _ hfetch hw => step_of_fetches_reserved hfetch (rowClass_of_reserved_mask hw)

/-! ## Undocumented words (R96) -/

/-- Settles O37: each row's own word is the one written out. -/
theorem undocumentedInstructionsStop : Obligations.UndocumentedInstructionsStop :=
  ⟨fun _ s => exec_of_undocumented s rfl, fun _ s => exec_of_undocumented s rfl, fun _ s => exec_of_undocumented s rfl,
    fun _ s => exec_of_undocumented s rfl, fun _ s => exec_of_undocumented s rfl, fun _ s => exec_of_undocumented s rfl,
    fun _ s => exec_of_undocumented s rfl, fun _ s => exec_of_undocumented s rfl, fun _ _ s => exec_of_undocumented s rfl,
    fun _ s => exec_of_undocumented s rfl, fun _ s => exec_of_undocumented s rfl, fun _ s => exec_of_undocumented s rfl⟩

theorem step_of_fetches_undocumented {s : State} {w : InstWord} (hfetch : Fetches s w)
    (hw : (decode w).rowClass = .undocumented) : step s = .refused (.undocumented w) := by
  rw [step_of_fetches hfetch, exec_of_undocumented s hw, encodeOfDecode w]

/-- Settles O36: the fetched word is of an undocumented row. -/
theorem undocumentedWordsAreRefused : Obligations.UndocumentedWordsAreRefused := by
  intro s w hfetch hw
  refine step_of_fetches_undocumented hfetch ?_
  rcases hw with hop | hop | ⟨hop, hf⟩ | ⟨hop, hf⟩ | ⟨hop, hf, hcb, h⟩
  · rw [(DecodesAs.undocQ2 hop).decode_eq, Instr.rowClass]
  · rw [(DecodesAs.undocOp11 hop).decode_eq, Instr.rowClass]
  · exact rowClass_of_undocumented_q0 hop hf
  · exact rowClass_of_undocumented_q1 hop hf
  · exact rowClass_of_undocumented_q1Alu hop hf hcb h

end Sys2Proof.Machine

namespace Sys2Proof.Machine

/-! # Accesses that stop, and a load after a store (spec/20_memory.md, spec/60_exceptions.md) -/

/-! ## C.LW and C.SW by the order of their checks (R44, R171) -/

section

variable {rs1 : CReg} {u : BitVec 7} {s : State} {a : Word}

/-- Everything C.LW can do. -/
theorem exec_lw_cases (rd : CReg) (ha : a = s.reg rs1.reg + zext32 u) :
    (¬ Aligned a ∧ exec (.lw rd rs1 u) s = .fault (.loadAddressMisaligned a s.pc)) ∨
    (Aligned a ∧ ¬ AllFour s.memMap.readable a ∧ exec (.lw rd rs1 u) s = .fault (.loadAccessFault a s.pc)) ∨
    (Aligned a ∧ AllFour s.memMap.readable a ∧ ∃ t, exec (.lw rd rs1 u) s = .next t) := by
  have hexec : exec (.lw rd rs1 u) s = andThen (memRead a s) fun v => writeBack rd.reg v s := ha ▸ rfl
  rw [hexec]
  rcases memRead_cases a s with ⟨h, e⟩ | ⟨h, hread, e⟩ | ⟨h, hread, e⟩ <;> rw [e]
  · exact .inl ⟨h, andThen_fault _ _⟩
  · exact .inr (.inl ⟨h, hread, andThen_fault _ _⟩)
  · exact .inr (.inr ⟨h, hread, _, writeBack_eq _ _ s⟩)

/-- Everything C.SW can do. -/
theorem exec_sw_cases (rs2 : CReg) (ha : a = s.reg rs1.reg + zext32 u) :
    (¬ Aligned a ∧ exec (.sw rs2 rs1 u) s = .fault (.storeAddressMisaligned a s.pc)) ∨
    (Aligned a ∧ ¬ AllFour s.memMap.writable a ∧ exec (.sw rs2 rs1 u) s = .fault (.storeAccessFault a s.pc)) ∨
    (Aligned a ∧ AllFour s.memMap.writable a ∧ SomeOfFour s.memMap.executable a ∧
      exec (.sw rs2 rs1 u) s = .refused (.storeToCode a)) ∨
    (Aligned a ∧ AllFour s.memMap.writable a ∧ ¬ SomeOfFour s.memMap.executable a ∧
      ∃ t, exec (.sw rs2 rs1 u) s = .next t) := by
  have hexec : exec (.sw rs2 rs1 u) s = andThen (memWrite a (s.reg rs2.reg) s) retire := ha ▸ rfl
  rw [hexec]
  rcases memWrite_cases a (s.reg rs2.reg) s with ⟨h, e⟩ | ⟨h, hw, e⟩ | ⟨h, hw, hx, e⟩ | ⟨h, hw, hx, e⟩ <;> rw [e]
  · exact .inl ⟨h, andThen_fault _ _⟩
  · exact .inr (.inl ⟨h, hw, andThen_fault _ _⟩)
  · exact .inr (.inr (.inl ⟨h, hw, hx, andThen_refused _ _⟩))
  · exact .inr (.inr (.inr ⟨h, hw, hx, _, retire_eq _⟩))

theorem exec_lw_fault {rd : CReg} {f : Fault} (h : exec (.lw rd rs1 u) s = .fault f) :
    (¬ Aligned (s.reg rs1.reg + zext32 u) ∧ f = .loadAddressMisaligned (s.reg rs1.reg + zext32 u) s.pc) ∨
    (Aligned (s.reg rs1.reg + zext32 u) ∧ ¬ AllFour s.memMap.readable (s.reg rs1.reg + zext32 u) ∧
      f = .loadAccessFault (s.reg rs1.reg + zext32 u) s.pc) := by
  rcases exec_lw_cases rd rfl with ⟨ha, e⟩ | ⟨ha, hr, e⟩ | ⟨-, -, t, e⟩ <;> cases h.symm.trans e
  · exact .inl ⟨ha, rfl⟩
  · exact .inr ⟨ha, hr, rfl⟩

theorem exec_lw_ne_refused {rd : CReg} {r : Refusal} : exec (.lw rd rs1 u) s ≠ .refused r := by
  intro h
  rcases exec_lw_cases rd rfl with ⟨-, e⟩ | ⟨-, -, e⟩ | ⟨-, -, t, e⟩ <;> cases h.symm.trans e

theorem exec_sw_fault {rs2 : CReg} {f : Fault} (h : exec (.sw rs2 rs1 u) s = .fault f) :
    (¬ Aligned (s.reg rs1.reg + zext32 u) ∧ f = .storeAddressMisaligned (s.reg rs1.reg + zext32 u) s.pc) ∨
    (Aligned (s.reg rs1.reg + zext32 u) ∧ ¬ AllFour s.memMap.writable (s.reg rs1.reg + zext32 u) ∧
      f = .storeAccessFault (s.reg rs1.reg + zext32 u) s.pc) := by
  rcases exec_sw_cases rs2 rfl with ⟨ha, e⟩ | ⟨ha, hw, e⟩ | ⟨-, -, -, e⟩ | ⟨-, -, -, t, e⟩ <;> cases h.symm.trans e
  · exact .inl ⟨ha, rfl⟩
  · exact .inr ⟨ha, hw, rfl⟩

theorem exec_sw_refused {rs2 : CReg} {r : Refusal} (h : exec (.sw rs2 rs1 u) s = .refused r) :
    Aligned (s.reg rs1.reg + zext32 u) ∧ AllFour s.memMap.writable (s.reg rs1.reg + zext32 u) ∧
      SomeOfFour s.memMap.executable (s.reg rs1.reg + zext32 u) ∧ r = .storeToCode (s.reg rs1.reg + zext32 u) := by
  rcases exec_sw_cases rs2 rfl with ⟨-, e⟩ | ⟨-, -, e⟩ | ⟨ha, hw, hx, e⟩ | ⟨-, -, -, t, e⟩ <;> cases h.symm.trans e
  exact ⟨ha, hw, hx, rfl⟩

end

theorem aligned_iff_mod {a : Word} : Aligned a ↔ a.toNat % 4 = 0 := by
  rw [Aligned, ← BitVec.toNat_inj, BitVec.extractLsb'_toNat, Nat.shiftRight_zero]
  rfl

/-- Settles O29, from the first check of each; a multiple of 4 below 2^32 is at most 2^32 - 4. -/
theorem misalignedAccessFaults : Obligations.MisalignedAccessFaults := by
  refine ⟨fun rd rs1 u s a ha hnot => ?_, fun rs2 rs1 u s a ha hnot => ?_, fun a ha => ?_⟩
  · rcases exec_lw_cases rd ha with ⟨-, e⟩ | ⟨h, -⟩ | ⟨h, -⟩
    · exact e
    all_goals exact absurd h hnot
  · rcases exec_sw_cases rs2 ha with ⟨-, e⟩ | ⟨h, -⟩ | ⟨h, -⟩ | ⟨h, -⟩
    · exact e
    all_goals exact absurd h hnot
  · have hmod := aligned_iff_mod.1 ha
    have hlt := a.isLt
    omega

/-- Settles O30, from the second check of each. -/
theorem unmappedAccessFaults : Obligations.UnmappedAccessFaults := by
  refine ⟨fun rd rs1 u s a ha haligned hnot => ?_, fun rs2 rs1 u s a ha haligned hnot => ?_⟩
  · rcases exec_lw_cases rd ha with ⟨h, -⟩ | ⟨-, -, e⟩ | ⟨-, h, -⟩
    · exact absurd haligned h
    · exact e
    · exact absurd h hnot
  · rcases exec_sw_cases rs2 ha with ⟨h, -⟩ | ⟨-, -, e⟩ | ⟨-, h, -⟩ | ⟨-, h, -⟩
    · exact absurd haligned h
    · exact e
    all_goals exact absurd h hnot

/-- Settles O31, from the third check of C.SW. -/
theorem storeToCodeIsRefused : Obligations.StoreToCodeIsRefused := by
  intro rs2 rs1 u s a ha haligned hwritable hcode
  rcases exec_sw_cases rs2 ha with ⟨h, -⟩ | ⟨-, h, -⟩ | ⟨-, -, -, e⟩ | ⟨-, -, h, -⟩
  · exact absurd haligned h
  · exact absurd hwritable h
  · exact e
  · exact absurd hcode h

/-! ## Every stop of a step (R161 to R168, R171) -/

/-- An instruction that cannot go on is C.LW, C.SW, Reserved or undocumented. -/
theorem exec_stop_cases {i : Instr} {s : State} (h : ¬ ∃ t, exec i s = .next t) :
    (∃ rd rs1 u, i = .lw rd rs1 u) ∨ (∃ rs2 rs1 u, i = .sw rs2 rs1 u) ∨ i.rowClass = .reserved ∨
      i.rowClass = .undocumented := by
  by_contra hnot
  simp only [not_or, not_exists] at hnot
  obtain ⟨hlw, hsw, hres, hund⟩ := hnot
  refine h (registerInstructionsCannotStop i s ?_ hlw hsw)
  cases hclass : i.rowClass with
  | instruction => exact .inl rfl
  | hint => exact .inr rfl
  | reserved => exact absurd hclass hres
  | undocumented => exact absurd hclass hund

/-- A step that stops: the fetch faults, or the fetched word's instruction stops. -/
theorem step_stop_cases {s : State} (h : ¬ ∃ t, step s = .next t) :
    (¬ (s.memMap.executable s.pc = true ∧ s.memMap.executable (s.pc + 1#32) = true) ∧
      step s = .fault (.instructionAccessFault s.pc)) ∨
    ∃ w, Fetches s w ∧ step s = exec (decode w) s := by
  have hend : s.endPc ≠ some s.pc := fun he => h ⟨s, step_of_ended he⟩
  by_cases hexec : s.memMap.executable s.pc = true ∧ s.memMap.executable (s.pc + 1#32) = true
  · have hfetch : Fetches s (s.mem.half s.pc) := ⟨hend, hexec.1, hexec.2, rfl⟩
    exact .inr ⟨_, hfetch, step_of_fetches hfetch⟩
  · exact .inl ⟨hexec, step_of_not_executable hend hexec⟩

/-- Settles O38: the fetch first, then the fetched word by its row, then the checks of the access it makes. -/
theorem stopsAreThoseOfTheSpec : Obligations.StopsAreThoseOfTheSpec := by
  refine ⟨fun s f h => ?_, fun s r h => ?_⟩
  · rcases step_stop_cases (s := s) (by simp [h]) with ⟨hexec, e⟩ | ⟨w, hfetch, e⟩
    · cases h.symm.trans e
      exact .inl ⟨hexec, rfl⟩
    · have hstop : exec (decode w) s = .fault f := e.symm.trans h
      refine .inr ⟨w, hfetch, ?_⟩
      rcases exec_stop_cases (i := decode w) (s := s) (by simp [hstop]) with
        ⟨rd, rs1, u, hw⟩ | ⟨rs2, rs1, u, hw⟩ | hw | hw
      · exact .inr (.inl ⟨rd, rs1, u, hw, exec_lw_fault (hw ▸ hstop)⟩)
      · exact .inr (.inr ⟨rs2, rs1, u, hw, exec_sw_fault (hw ▸ hstop)⟩)
      · cases h.symm.trans (step_of_fetches_reserved hfetch hw)
        exact .inl ⟨hw, rfl⟩
      · cases h.symm.trans (step_of_fetches_undocumented hfetch hw)
  · rcases step_stop_cases (s := s) (by simp [h]) with ⟨-, e⟩ | ⟨w, hfetch, e⟩
    · cases h.symm.trans e
    · have hstop : exec (decode w) s = .refused r := e.symm.trans h
      refine ⟨w, hfetch, ?_⟩
      rcases exec_stop_cases (i := decode w) (s := s) (by simp [hstop]) with
        ⟨rd, rs1, u, hw⟩ | ⟨rs2, rs1, u, hw⟩ | hw | hw
      · exact absurd (hw ▸ hstop) exec_lw_ne_refused
      · exact .inr ⟨rs2, rs1, u, hw, exec_sw_refused (hw ▸ hstop)⟩
      · cases h.symm.trans (step_of_fetches_reserved hfetch hw)
      · cases h.symm.trans (step_of_fetches_undocumented hfetch hw)
        exact .inl ⟨hw, rfl⟩

/-! ## A load after a store (R49, R56, R198) -/

theorem word_setWord_same {m : Memory} (hm : m.wf = true) (a v : Word) : (m.setWord a v).word a = v := by
  obtain ⟨h0, h1, h2, h3⟩ := bytes_setWord hm a v
  rw [Memory.word, h0, h1, h2, h3]
  simp (disch := decide) only [BitVec.extractLsb'_append_extractLsb'_eq_extractLsb', BitVec.extractLsb'_eq_self]

/-- Two aligned words that start at different addresses share no byte. -/
theorem add_ne_add_of_aligned {a b : Word} (ha : Aligned a) (hb : Aligned b) (hne : b ≠ a) {i j : Nat} (hi : i < 4)
    (hj : j < 4) : b + BitVec.ofNat 32 i ≠ a + BitVec.ofNat 32 j := by
  have hamod := aligned_iff_mod.1 ha
  have hbmod := aligned_iff_mod.1 hb
  bv_omega

theorem byte_setWord_of_aligned_ne {m : Memory} (hm : m.wf = true) {a b : Word} (v : Word) (ha : Aligned a)
    (hb : Aligned b) (hne : b ≠ a) {i : Nat} (hi : i < 4) :
    (m.setWord a v).byte (b + BitVec.ofNat 32 i) = m.byte (b + BitVec.ofNat 32 i) := by
  have apart {j : Nat} (hj : j < 4) := add_ne_add_of_aligned ha hb hne hi hj
  have hbase : b + BitVec.ofNat 32 i ≠ a := by simpa using apart (j := 0) (by decide)
  exact byte_setWord_of_ne hm v hbase (apart (by decide)) (apart (by decide)) (apart (by decide))

theorem word_setWord_of_aligned_ne {m : Memory} (hm : m.wf = true) {a b : Word} (v : Word) (ha : Aligned a)
    (hb : Aligned b) (hne : b ≠ a) : (m.setWord a v).word b = m.word b := by
  have kept {i : Nat} (hi : i < 4) := byte_setWord_of_aligned_ne hm v ha hb hne hi
  have h0 : (m.setWord a v).byte b = m.byte b := by simpa using kept (i := 0) (by decide)
  rw [Memory.word, Memory.word, h0, kept (by decide), kept (by decide), kept (by decide)]

/-- A word read after a word is stored, both aligned (R42, R46). -/
theorem word_setWord {m : Memory} (hm : m.wf = true) {a b : Word} (v : Word) (ha : Aligned a) (hb : Aligned b) :
    (m.setWord a v).word b = if b = a then v else m.word b := by
  split_ifs with hba
  · rw [hba, word_setWord_same hm]
  · exact word_setWord_of_aligned_ne hm v ha hb hba

/-- Settles O47: C.SW leaves the stored word in memory, and C.LW writes to its destination what memory then holds. -/
theorem loadAfterStore : Obligations.LoadAfterStore := by
  rintro s t rs2 rs1 rd rs1' u u' _ b hm rfl hsw hb hbaligned hreadable
  obtain ⟨haligned, -, -, hretire⟩ := exec_sw_eq_next.1 hsw
  rw [retire_eq] at hretire
  have hmem : t.mem = s.mem.setWord (s.reg rs1.reg + zext32 u) (s.reg rs2.reg) := by cases hretire; rfl
  obtain ⟨v, hlw, hregs, -⟩ := lwRule.2.1 rd rs1' u' t b hb hbaligned hreadable
  refine ⟨v, hlw, (hregs.reg_dest rd.reg_ne_zero).trans ?_⟩
  calc t.mem.word b = (s.mem.setWord (s.reg rs1.reg + zext32 u) (s.reg rs2.reg)).word b := by rw [hmem]
    _ = _ := word_setWord hm _ haligned hbaligned

end Sys2Proof.Machine
